-- ==== Sys2Proof/Word.lean ====
section
/-! DEFINITION. The word types of the block: the 32-bit command and response word and the plainest operation on it.
Bit 0 is the least significant bit of every value and every value is unsigned (00_scope.md R12, R13). -/

namespace Sys2Proof

/-- A command or response word: 32 bits moved whole on a parallel port (20_memory.md R63). -/
abbrev Word := BitVec 32

/-- A color code, the content of one frame buffer cell: 3 bits, 0..7 (10_state.md R21). -/
abbrev Color := BitVec 3

/-- `zext_32`: zero extension to a response word (00_scope.md R13). -/
abbrev zext32 {n : Nat} (v : BitVec n) : Word := v.setWidth 32

end Sys2Proof
end

