-- ==== Sys2Proof/Config.lean ====
section
/-! DEFINITION. The fixed parameters of the block (00_scope.md R10). None is configurable.
The open parameters of 00_scope.md R11 are no constants here: STEP_TIME and TICK belong to real time, which the model does
not hold (notes/assumptions/10.md); PANEL_SHIFT_EDGE and PANEL_COLUMN_ORDER are arguments of the informative panel observer
(Machine/Panel.lean). The spec leaves no value of a defined step open, so there is no free value. -/

namespace Sys2Proof.Config

/-- Columns of the grid (00_scope.md R10, `COLS`). -/
def cols : Nat := 32

/-- Rows of the grid (00_scope.md R10, `ROWS`). -/
def rows : Nat := 16

/-- Scan rows, the rows of one half (00_scope.md R10, `HALF`). -/
def half : Nat := 8

/-- Cells of the frame buffer (20_memory.md R60). -/
def cells : Nat := cols * rows

/-- The value DWELL holds after reset (00_scope.md R10, `DWELL_RESET`; 10_state.md R29). -/
def dwellReset : BitVec 16 := 5

end Sys2Proof.Config
end

