-- ==== Sys2Proof/Syntax.lean ====
section
/-! DEFINITION. The seven host commands, one constructor for each row of the opcode table (30_encoding.md R93).
A field has exactly the width its format gives it (30_encoding.md R88 to R91), so no term holds an operand that a command word
cannot hold; the assembler's range check is WellFormed.lean's. -/

namespace Sys2Proof

/-- A host command (00_scope.md R4). -/
inductive Instr where
  /-- SETPIX x, y, k (40_framebuffer.md R110). -/
  | setpix (x : BitVec 5) (y : BitVec 4) (k : Color)
  /-- FILLRECT x1, y1, x2, y2, k (40_framebuffer.md R116): the half-open rectangle [x1, x2) × [y1, y2). -/
  | fillrect (x1 : BitVec 5) (y1 : BitVec 4) (x2 : BitVec 6) (y2 : BitVec 5) (k : Color)
  /-- CLEAR (40_framebuffer.md R122). -/
  | clear
  /-- RDPIX x, y (40_framebuffer.md R126). -/
  | rdpix (x : BitVec 5) (y : BitVec 4)
  /-- REFRESH (42_scan_engine.md R150). -/
  | refresh
  /-- WRDWELL n (43_config.md R190). -/
  | wrdwell (n : BitVec 16)
  /-- RDDWELL (43_config.md R193). -/
  | rddwell
deriving DecidableEq, Repr

end Sys2Proof
end

