-- ==== Sys2Proof/WellFormed.lean ====
section
/-! DEFINITION. When a command as an assembler reads it, with operands of any size, is well formed, and the command it
then stands for (30_encoding.md R99). An operand outside its field's range is refused and never wrapped
(30_encoding.md R99, 40_framebuffer.md R112). -/

namespace Sys2Proof

/-- A command in assembler form: the mnemonic and its operands as numbers, in the operand order of 30_encoding.md R99. -/
inductive AsmCommand where
  | setpix (x y k : Nat)
  | fillrect (x1 y1 x2 y2 k : Nat)
  | clear
  | rdpix (x y : Nat)
  | refresh
  | wrdwell (n : Nat)
  | rddwell
deriving DecidableEq, Repr

/-- Every operand is in its field's range, as the table of 30_encoding.md R99 gives the ranges. -/
def AsmCommand.wf : AsmCommand → Bool
  | .setpix x y k => decide (x ≤ 31) && decide (y ≤ 15) && decide (k ≤ 7)
  | .fillrect x1 y1 x2 y2 k =>
    decide (x1 ≤ 31) && decide (y1 ≤ 15) && decide (x2 ≤ 63) && decide (y2 ≤ 31) && decide (k ≤ 7)
  | .clear => true
  | .rdpix x y => decide (x ≤ 31) && decide (y ≤ 15)
  | .refresh => true
  | .wrdwell n => decide (n ≤ 65535)
  | .rddwell => true

/-- The command whose fields hold the operands' values. -/
def AsmCommand.toInstr : AsmCommand → Instr
  | .setpix x y k => .setpix (.ofNat 5 x) (.ofNat 4 y) (.ofNat 3 k)
  | .fillrect x1 y1 x2 y2 k => .fillrect (.ofNat 5 x1) (.ofNat 4 y1) (.ofNat 6 x2) (.ofNat 5 y2) (.ofNat 3 k)
  | .clear => .clear
  | .rdpix x y => .rdpix (.ofNat 5 x) (.ofNat 4 y)
  | .refresh => .refresh
  | .wrdwell n => .wrdwell (.ofNat 16 n)
  | .rddwell => .rddwell

/-- Assembling refuses what is not well formed (30_encoding.md R99: "It does not wrap it"). -/
def AsmCommand.assemble (c : AsmCommand) : Option Instr :=
  if c.wf then some c.toInstr else none

/-- The assembler form of a command. -/
def Instr.toAsm : Instr → AsmCommand
  | .setpix x y k => .setpix x.toNat y.toNat k.toNat
  | .fillrect x1 y1 x2 y2 k => .fillrect x1.toNat y1.toNat x2.toNat y2.toNat k.toNat
  | .clear => .clear
  | .rdpix x y => .rdpix x.toNat y.toNat
  | .refresh => .refresh
  | .wrdwell n => .wrdwell n.toNat
  | .rddwell => .rddwell

end Sys2Proof
end

