-- ==== Sys2Proof/Decode.lean ====
section
/-! DEFINITION. Decoding and encoding a command word (30_encoding.md R86 to R98). The decoder is total on 32-bit words and
names why it rejects one; the encoder is written from the formats of 30_encoding.md R87 to R91. -/

namespace Sys2Proof

/-- Why a word spells no command. The block records neither: both raise the one fault ILLEGAL (60_exceptions.md R205). -/
inductive Illegal where
  /-- Opcode 0x0 or 0x8 to 0xF (30_encoding.md R95). -/
  | reservedOpcode
  /-- A defined opcode with a nonzero reserved bit (30_encoding.md R96). -/
  | reservedBits
deriving DecidableEq, Repr

/-- One row of the opcode map (30_encoding.md R93) with the way its fields are read (30_encoding.md R88 to R92). -/
structure OpcodeRow where
  pattern : Word
  mask : Word
  read : Word → Instr

/-- The opcode, `w[31:28]` (30_encoding.md R86). -/
def fieldOpcode (w : Word) : BitVec 4 := w.extractLsb' 28 4

/-- `w[22:18]`: `x` of format P and `x1` of format R (30_encoding.md R88, R89). -/
def fieldX (w : Word) : BitVec 5 := w.extractLsb' 18 5

/-- `w[17:14]`: `y` of format P and `y1` of format R (30_encoding.md R88, R89). -/
def fieldY (w : Word) : BitVec 4 := w.extractLsb' 14 4

/-- `w[13:8]`: `x2` of format R (30_encoding.md R89). -/
def fieldX2 (w : Word) : BitVec 6 := w.extractLsb' 8 6

/-- `w[7:3]`: `y2` of format R (30_encoding.md R89). -/
def fieldY2 (w : Word) : BitVec 5 := w.extractLsb' 3 5

/-- `w[2:0]`: `k` of formats P and R (30_encoding.md R88, R89). -/
def fieldK (w : Word) : Color := w.extractLsb' 0 3

/-- `w[15:0]`: `imm16` of format W (30_encoding.md R91). -/
def fieldImm16 (w : Word) : BitVec 16 := w.extractLsb' 0 16

/-- The opcode map (30_encoding.md R93), in the order of its rows. -/
def opcodeMap : List OpcodeRow :=
  [ { pattern := 0x10000000, mask := 0xFF803FF8, read := fun w => .setpix (fieldX w) (fieldY w) (fieldK w) },
    { pattern := 0x20000000, mask := 0xFF800000,
      read := fun w => .fillrect (fieldX w) (fieldY w) (fieldX2 w) (fieldY2 w) (fieldK w) },
    { pattern := 0x30000000, mask := 0xFFFFFFFF, read := fun _ => .clear },
    { pattern := 0x40000000, mask := 0xFF803FFF, read := fun w => .rdpix (fieldX w) (fieldY w) },
    { pattern := 0x50000000, mask := 0xFFFFFFFF, read := fun _ => .refresh },
    { pattern := 0x60000000, mask := 0xFFFF0000, read := fun w => .wrdwell (fieldImm16 w) },
    { pattern := 0x70000000, mask := 0xFFFFFFFF, read := fun _ => .rddwell } ]

/-- Some row of the opcode map has this opcode. -/
def opcodeDefined (op : BitVec 4) : Bool :=
  opcodeMap.any fun row => fieldOpcode row.pattern == op

/-- `decode(w)` (30_encoding.md R94): the row with `w & mask = match`, or ILLEGAL. -/
def decode (w : Word) : Except Illegal Instr :=
  match opcodeMap.find? fun row => w &&& row.mask == row.pattern with
  | some row => .ok (row.read w)
  | none => .error (if opcodeDefined (fieldOpcode w) then .reservedBits else .reservedOpcode)

/-- The word of a command: its opcode, its fields at their places, every reserved bit 0 (30_encoding.md R87 to R93). -/
def encode : Instr → Word
  | .setpix x y k => 0x1#4 ++ 0#5 ++ x ++ y ++ 0#6 ++ 0#5 ++ k
  | .fillrect x1 y1 x2 y2 k => 0x2#4 ++ 0#5 ++ x1 ++ y1 ++ x2 ++ y2 ++ k
  | .clear => 0x3#4 ++ 0#28
  | .rdpix x y => 0x4#4 ++ 0#5 ++ x ++ y ++ 0#6 ++ 0#5 ++ 0#3
  | .refresh => 0x5#4 ++ 0#28
  | .wrdwell n => 0x6#4 ++ 0#12 ++ n
  | .rddwell => 0x7#4 ++ 0#28

/-- The command word of an opcode-table row: the row's `nbits` bits of `w`, every bit above them 0. -/
def tableWord (nbits w : Nat) : Word := BitVec.ofNat 32 (w % 2 ^ nbits)

/-- What the decoder reads from an opcode-table row's word, bit 0 the least significant bit, as 30_encoding.md R86 and
20_memory.md R63 number it. -/
def decodeTableWord (nbits w : Nat) : Option Instr :=
  match decode (tableWord nbits w) with
  | .ok i => some i
  | .error _ => none

end Sys2Proof
end

