-- ==== Sys2Proof/Machine/Codec.lean ====
section
/-! DEFINITION. The color codec (41_color_codec.md): the function of R140 and the ROM table of R140. -/

namespace Sys2Proof.Machine

/-- One entry of the codec table: the states of the red, green and blue line (10_state.md R25). -/
structure Rgb where
  r : Bool
  g : Bool
  b : Bool
deriving DecidableEq, Repr

/-- `LUT(k)` by the pseudocode of 41_color_codec.md R140: `k[0]`, `k[1]`, `k[2]`. The blue line follows bit 2
(41_color_codec.md R141, 90_conflicts.md C2). -/
def codecBits (k : Color) : Rgb :=
  { r := k.getLsbD 0, g := k.getLsbD 1, b := k.getLsbD 2 }

/-- The ROM contents, the full table of 41_color_codec.md R140. -/
def codecRom : Vector Rgb 8 :=
  #v[ ⟨false, false, false⟩, ⟨true, false, false⟩, ⟨false, true, false⟩, ⟨true, true, false⟩,
      ⟨false, false, true⟩, ⟨true, false, true⟩, ⟨false, true, true⟩, ⟨true, true, true⟩ ]

end Sys2Proof.Machine
end

