-- ==== Sys2Proof/Machine/Memory.lean ====
section
/-! DEFINITION. The one memory of the block, the frame buffer: 512 cells of 3 bits, named by a linear index 0..511
(20_memory.md R60, R61). It is held as a list of (index, code) pairs in one canonical form: indexes strictly rising and below
512, and no entry equal to what an unlisted cell reads as (notes/assumptions/2.md). -/

namespace Sys2Proof.Machine

/-- Frame buffer contents: the cells that do not hold the unlisted value, by rising linear index. -/
abbrev Memory := List (Nat × Color)

/-- What an unlisted cell reads as: the cell's reset value (10_state.md R23, 20_memory.md R73). -/
def Memory.unlisted : Color := 0

/-- `MemRead(a, 1)` (00_scope.md R14). -/
def Memory.read : Memory → Nat → Color
  | [], _ => Memory.unlisted
  | (b, v) :: rest, a => if a = b then v else Memory.read rest a

/-- `MemWrite(a, 1, v)` (00_scope.md R14); writing the unlisted value removes the entry. -/
def Memory.write : Memory → Nat → Color → Memory
  | [], a, v => if v = Memory.unlisted then [] else [(a, v)]
  | (b, u) :: rest, a, v =>
    if a < b then (if v = Memory.unlisted then (b, u) :: rest else (a, v) :: (b, u) :: rest)
    else if a = b then (if v = Memory.unlisted then rest else (a, v) :: rest)
    else (b, u) :: Memory.write rest a v

/-- One code written into every cell of a list. The order cannot be observed (40_framebuffer.md R118). -/
def Memory.fill (m : Memory) (cells : List Nat) (k : Color) : Memory :=
  cells.foldr (fun a m' => m'.write a k) m

/-- The canonical form for the cells from `lo` on. -/
def Memory.wfFrom : Nat → Memory → Bool
  | _, [] => true
  | lo, (a, v) :: rest =>
    decide (lo ≤ a) && decide (a < Config.cells) && decide (v ≠ Memory.unlisted) && Memory.wfFrom (a + 1) rest

/-- The memory is in canonical form. -/
def Memory.wf (m : Memory) : Bool := Memory.wfFrom 0 m

end Sys2Proof.Machine
end

