-- ==== Sys2Proof/Machine/State.lean ====
section
/-! DEFINITION. The state of the block, exactly the table of 10_state.md R20, and beside it three fields of the model's own:
what the host will do at the port (`host`, notes/assumptions/3.md) and what the last step put on its output ports (`writes`,
`rsp`, notes/assumptions/5.md). -/

namespace Sys2Proof.Machine

/-- The top-level state of the block (10_state.md R31). -/
inductive Mode where
  | idle
  | scan
  | fault
deriving DecidableEq, Repr

/-- The phases of the scan sequencer (10_state.md R36). -/
inductive Phase where
  | blankOn
  | setAddr
  | colUp
  | colLo
  | clkHi
  | clkLo
  | latHi
  | latLo
  | blankOff
  | rowHold
deriving DecidableEq, Repr

/-- The 12 panel lines, in the order of the pin vector's bits 0 to 11 (10_state.md R40, R41). -/
inductive Line where
  | rUp
  | gUp
  | bUp
  | rLo
  | gLo
  | bLo
  | clk
  | lat
  | oe
  | a
  | b
  | c
deriving DecidableEq, Repr

/-- The output register `out`: one level for each line (10_state.md R40, R41). -/
structure Lines where
  rUp : Bool
  gUp : Bool
  bUp : Bool
  rLo : Bool
  gLo : Bool
  bLo : Bool
  clk : Bool
  lat : Bool
  oe : Bool
  a : Bool
  b : Bool
  c : Bool
deriving DecidableEq, Repr

/-- The ordered list of (line, level) pairs a step drives (10_state.md R44). -/
abbrev WriteList := List (Line × Bool)

/-- The input signals of one step (30_encoding.md R80). -/
structure Pins where
  rst : Bool
  cmdValid : Bool
  cmdData : Word
deriving DecidableEq, Repr

/-- What the host does at the port next (30_encoding.md R80, R81, R100; notes/assumptions/3.md). -/
inductive HostAction where
  /-- These levels for exactly one step, whatever the block does. -/
  | drive (p : Pins)
  /-- This word with `cmd_valid = 1` until it is accepted (30_encoding.md R81). -/
  | hold (w : Word)
  /-- Nothing until `cmd_ready = 1`, the pseudo-instruction WAITIDLE (30_encoding.md R100). -/
  | waitIdle
  /-- This word with `cmd_valid = 1` for ever, as REFRESHLOOP does with REFRESH (30_encoding.md R100). -/
  | always (w : Word)
deriving DecidableEq, Repr

/-- The state of the block (10_state.md R20), and the model's own `host`, `writes` and `rsp`. -/
structure State where
  /-- The frame buffer (10_state.md R21). -/
  fb : Memory
  /-- The color codec ROM (10_state.md R25). -/
  lut : Vector Rgb 8
  /-- The register DWELL (10_state.md R28). -/
  dwell : BitVec 16
  /-- STATUS.MODE (10_state.md R31). -/
  mode : Mode
  /-- STATUS.CAUSE (10_state.md R33). -/
  cause : BitVec 2
  /-- The sequencer's phase (10_state.md R36). -/
  phase : Phase
  /-- The current scan row (10_state.md R36). -/
  row : BitVec 3
  /-- The current column (10_state.md R36). -/
  col : BitVec 5
  /-- The dwell units still to spend (10_state.md R36). -/
  wait : BitVec 16
  /-- The levels of the 12 lines (10_state.md R41). -/
  out : Lines
  /-- The model's own: what the host will do, the next action first. -/
  host : List HostAction
  /-- The model's own: the write list of the last step (10_state.md R44). -/
  writes : WriteList
  /-- The model's own: the response word of the last step, if it gave one (30_encoding.md R84). -/
  rsp : Option Word
deriving DecidableEq, Repr

/-- The reasons the machine stops: none. What the source calls fatal or undefined is the mode FAULT, a next state
(60_exceptions.md R203, R208), and every step in every mode has the effect the spec gives it; nobody raises a `Fault`. -/
inductive Fault where
deriving DecidableEq, Repr

/-- The reasons a step has no meaning. -/
inductive Refusal where
  /-- Raised by an arm of exec for a command that has no meaning yet; no arm raises it now. Safe: the machine stops where the
  hardware goes on. -/
  | notModelled (mnemonic : String)
deriving DecidableEq, Repr

/-- The levels of the lines after reset: OE = 1, every other line 0 (10_state.md R42). -/
def Lines.reset : Lines :=
  { rUp := false, gUp := false, bUp := false, rLo := false, gLo := false, bLo := false,
    clk := false, lat := false, oe := true, a := false, b := false, c := false }

/-- The block right after a reset step (70_reset_and_hazards.md R230); the host presents nothing. -/
def State.reset : State :=
  { fb := [], lut := codecRom, dwell := Config.dwellReset, mode := .idle, cause := 0,
    phase := .blankOn, row := 0, col := 0, wait := 0, out := Lines.reset,
    host := [], writes := [], rsp := none }

end Sys2Proof.Machine
end

