-- ==== Sys2Proof/Machine/Flags.lean ====
section
/-! DEFINITION. The status outputs, the fault causes and the output ports: functions of the state after the last step
(10_state.md R34, R41; 30_encoding.md R84). The block has no condition codes or flags other than these. -/

namespace Sys2Proof.Machine

/-- `cmd_ready = (mode = IDLE)` (10_state.md R34, 30_encoding.md R82). -/
def State.cmdReady (s : State) : Bool := decide (s.mode = .idle)

/-- `busy = (mode = SCAN)` (10_state.md R34). -/
def State.busy (s : State) : Bool := decide (s.mode = .scan)

/-- `fault = (mode = FAULT)` (10_state.md R34). -/
def State.faultOut (s : State) : Bool := decide (s.mode = .fault)

/-- `cause[1:0] = cause` (10_state.md R34). -/
def State.causeOut (s : State) : BitVec 2 := s.cause

/-- `rsp_valid` of the last step (30_encoding.md R84). -/
def State.rspValid (s : State) : Bool := s.rsp.isSome

/-- `rsp_data` of the last step, 0 when there is no response (30_encoding.md R84). -/
def State.rspData (s : State) : Word := s.rsp.getD 0

/-- The fault causes that are raised (60_exceptions.md R202). -/
inductive Cause where
  | illegal
  | range
deriving DecidableEq, Repr

/-- The code a cause leaves in `cause` (60_exceptions.md R202). -/
def Cause.code : Cause → BitVec 2
  | .illegal => 1
  | .range => 2

/-- The level of one line. -/
def Lines.level (o : Lines) : Line → Bool
  | .rUp => o.rUp
  | .gUp => o.gUp
  | .bUp => o.bUp
  | .rLo => o.rLo
  | .gLo => o.gLo
  | .bLo => o.bLo
  | .clk => o.clk
  | .lat => o.lat
  | .oe => o.oe
  | .a => o.a
  | .b => o.b
  | .c => o.c

/-- The pin vector, bit 11 `C` down to bit 0 `R_UP` (10_state.md R41). -/
def Lines.pinVector (o : Lines) : BitVec 12 :=
  BitVec.ofBool o.c ++ BitVec.ofBool o.b ++ BitVec.ofBool o.a ++ BitVec.ofBool o.oe ++
  BitVec.ofBool o.lat ++ BitVec.ofBool o.clk ++ BitVec.ofBool o.bLo ++ BitVec.ofBool o.gLo ++
  BitVec.ofBool o.rLo ++ BitVec.ofBool o.bUp ++ BitVec.ofBool o.gUp ++ BitVec.ofBool o.rUp

end Sys2Proof.Machine
end

