-- ==== Sys2Proof/Machine/Operands.lean ====
section
/-! DEFINITION. The operand forms: the pixel of format P, the rectangle of format R, the halves of the panel and the
row-address bits (20_memory.md R61; 40_framebuffer.md R116, R117; 42_scan_engine.md R155 to R157). -/

namespace Sys2Proof.Machine

/-- `idx(x, y) = {x[4:0], y[3:0]}` (20_memory.md R61). -/
def cellIndex (x : BitVec 5) (y : BitVec 4) : Nat := (x ++ y).toNat

/-- `idx(x, y) = 16*x + y` on numbers (20_memory.md R61). -/
def gridIndex (x y : Nat) : Nat := Config.rows * x + y

/-- The rectangle of a FILLRECT is empty (40_framebuffer.md R116). -/
def rectEmpty (x1 : BitVec 5) (y1 : BitVec 4) (x2 : BitVec 6) (y2 : BitVec 5) : Bool :=
  decide (x1.toNat ≥ x2.toNat) || decide (y1.toNat ≥ y2.toNat)

/-- A bound of a FILLRECT lies beyond the grid (40_framebuffer.md R116, R117). -/
def rectBeyond (x2 : BitVec 6) (y2 : BitVec 5) : Bool :=
  decide (x2.toNat > Config.cols) || decide (y2.toNat > Config.rows)

/-- A FILLRECT is out of range exactly when it is non-empty and a bound lies beyond the grid (40_framebuffer.md R117). -/
def rectOutOfRange (x1 : BitVec 5) (y1 : BitVec 4) (x2 : BitVec 6) (y2 : BitVec 5) : Bool :=
  !rectEmpty x1 y1 x2 y2 && rectBeyond x2 y2

/-- The linear indexes of the cells of [x1, x2) × [y1, y2), x outer and y inner (40_framebuffer.md R116). -/
def rectCells (x1 y1 x2 y2 : Nat) : List Nat :=
  (List.range' x1 (x2 - x1)).flatMap fun x => (List.range' y1 (y2 - y1)).map fun y => gridIndex x y

/-- The linear indexes of every cell (40_framebuffer.md R122). -/
def allCells : List Nat := rectCells 0 0 Config.cols Config.rows

/-- Cell row `r` of the upper half (10_state.md R24). -/
def upperRow (r : BitVec 3) : BitVec 4 := r.setWidth 4

/-- Cell row `r + 8` of the lower half, which is in 8..15 (00_scope.md R13, 10_state.md R24). -/
def lowerRow (r : BitVec 3) : BitVec 4 := r.setWidth 4 + 8

end Sys2Proof.Machine
end

