-- ==== Sys2Proof/Machine/Ops.lean ====
section
/-! DEFINITION. The named operations over the block's state that the meanings are made of: cell reads and writes, the codec
lookup, line writes, the response port, the input port, taking a fault and leaving it by reset. -/

namespace Sys2Proof.Machine

/-- `fb[x][y]` (00_scope.md R14). -/
def State.cell (s : State) (x : BitVec 5) (y : BitVec 4) : Color := s.fb.read (cellIndex x y)

/-- `fb[x][y] <- k` (00_scope.md R14). -/
def State.writeCell (s : State) (x : BitVec 5) (y : BitVec 4) (k : Color) : State :=
  { s with fb := s.fb.write (cellIndex x y) k }

/-- `fb[x][y] <- k` for every cell of a list, all in the one step (20_memory.md R67). -/
def State.fillCells (s : State) (cells : List Nat) (k : Color) : State :=
  { s with fb := s.fb.fill cells k }

/-- `DWELL <- n` (43_config.md R190). -/
def State.writeDwell (s : State) (n : BitVec 16) : State := { s with dwell := n }

/-- `LUT(k)` read from the ROM (00_scope.md R14, 10_state.md R25). -/
def State.codec (s : State) (k : Color) : Rgb := s.lut[k.toNat]'k.isLt

/-- One line of the output register driven to a level. -/
def Lines.set (o : Lines) (l : Line) (v : Bool) : Lines :=
  match l with
  | .rUp => { o with rUp := v }
  | .gUp => { o with gUp := v }
  | .bUp => { o with bUp := v }
  | .rLo => { o with rLo := v }
  | .gLo => { o with gLo := v }
  | .bLo => { o with bLo := v }
  | .clk => { o with clk := v }
  | .lat => { o with lat := v }
  | .oe => { o with oe := v }
  | .a => { o with a := v }
  | .b => { o with b := v }
  | .c => { o with c := v }

/-- `emit(L, v)` (00_scope.md R14): the line takes the level and the pair joins the step's write list, changed or not
(10_state.md R44). -/
def State.emit (s : State) (l : Line) (v : Bool) : State :=
  { s with out := s.out.set l v, writes := s.writes ++ [(l, v)] }

/-- `respond(v)` (00_scope.md R14, 30_encoding.md R84). -/
def State.respond (s : State) (v : Word) : State := { s with rsp := some v }

/-- `raise Fault(c)` (60_exceptions.md R203): the mode becomes FAULT, the cause is recorded and OE is driven to 1; nothing
else changes and nothing is saved. -/
def State.raiseFault (s : State) (c : Cause) : State :=
  { s.emit .oe true with mode := .fault, cause := c.code }

/-- Reset (70_reset_and_hazards.md R230), the only way out of FAULT (60_exceptions.md R209). It has no effect on the ROM and
is no line write; what the host will do is not the block's to change. -/
def State.resetBlock (s : State) : State :=
  { s with
    fb := [], dwell := Config.dwellReset, mode := .idle, cause := 0,
    phase := .blankOn, row := 0, col := 0, wait := 0, out := Lines.reset }

/-- Nothing presented: `rst = 0`, `cmd_valid = 0`. -/
def Pins.quiet : Pins := { rst := false, cmdValid := false, cmdData := 0 }

/-- The action is WAITIDLE. -/
def HostAction.isWait : HostAction → Bool
  | .waitIdle => true
  | .drive _ => false
  | .hold _ => false
  | .always _ => false

/-- The levels an action puts on the input signals. -/
def HostAction.pins : HostAction → Pins
  | .drive p => p
  | .hold w => { rst := false, cmdValid := true, cmdData := w }
  | .waitIdle => Pins.quiet
  | .always w => { rst := false, cmdValid := true, cmdData := w }

/-- The host is done with an action after a step in which `cmd_ready` was this level (30_encoding.md R81): a held word goes
once it is accepted, a looped one never, and a wait that met `cmd_ready = 0` goes on. -/
def HostAction.doneAfter (ready : Bool) : HostAction → Bool
  | .drive _ => true
  | .hold _ => ready
  | .waitIdle => false
  | .always _ => false

/-- What the host still has to do when the step begins: a wait is over once `cmd_ready = 1` (30_encoding.md R100). -/
def State.pending (s : State) : List HostAction :=
  if s.cmdReady then s.host.dropWhile HostAction.isWait else s.host

/-- The input signals of the next step (30_encoding.md R80). -/
def State.pins (s : State) : Pins :=
  match s.pending with
  | [] => Pins.quiet
  | h :: _ => h.pins

/-- What the host will do after the next step. -/
def State.hostAfter (s : State) : List HostAction :=
  match s.pending with
  | [] => []
  | h :: rest => if h.doneAfter s.cmdReady then rest else h :: rest

/-- A step begins: the host's action is taken up, the step's write list is empty and no response is present
(10_state.md R44, 30_encoding.md R84). -/
def State.beginStep (s : State) : State :=
  { s with host := s.hostAfter, writes := [], rsp := none }

/-- A command is accepted in the next step: `cmd_valid = 1`, `cmd_ready = 1` and `rst = 0` (30_encoding.md R81). -/
def State.accepts (s : State) : Bool := s.pins.cmdValid && s.cmdReady && !s.pins.rst

end Sys2Proof.Machine
end

