-- ==== Sys2Proof/Machine/ConfigCommands.lean ====
section
/-! DEFINITION. The configuration commands WRDWELL and RDDWELL (43_config.md). -/

namespace Sys2Proof.Machine

/-- WRDWELL (43_config.md R190). -/
def execWrdwell (n : BitVec 16) (s : State) : Host.Outcome State Fault Refusal :=
  .next (s.writeDwell n)

/-- RDDWELL (43_config.md R193). -/
def execRddwell (s : State) : Host.Outcome State Fault Refusal :=
  .next (s.respond (zext32 s.dwell))

end Sys2Proof.Machine
end

