-- ==== Sys2Proof/Machine/FrameCommands.lean ====
section
/-! DEFINITION. The frame buffer commands SETPIX, FILLRECT, CLEAR and RDPIX (40_framebuffer.md). -/

namespace Sys2Proof.Machine

/-- SETPIX (40_framebuffer.md R110). -/
def execSetpix (x : BitVec 5) (y : BitVec 4) (k : Color) (s : State) : Host.Outcome State Fault Refusal :=
  .next (s.writeCell x y k)

/-- FILLRECT (40_framebuffer.md R116): nothing for an empty rectangle, the fault RANGE for a non-empty one outside the grid,
and otherwise every cell of the rectangle written. -/
def execFillrect (x1 : BitVec 5) (y1 : BitVec 4) (x2 : BitVec 6) (y2 : BitVec 5) (k : Color) (s : State) :
    Host.Outcome State Fault Refusal :=
  if rectEmpty x1 y1 x2 y2 then .next s
  else if rectBeyond x2 y2 then .next (s.raiseFault .range)
  else .next (s.fillCells (rectCells x1.toNat y1.toNat x2.toNat y2.toNat) k)

/-- CLEAR (40_framebuffer.md R122). -/
def execClear (s : State) : Host.Outcome State Fault Refusal :=
  .next (s.fillCells allCells 0)

/-- RDPIX (40_framebuffer.md R126). -/
def execRdpix (x : BitVec 5) (y : BitVec 4) (s : State) : Host.Outcome State Fault Refusal :=
  .next (s.respond (zext32 (s.cell x y)))

end Sys2Proof.Machine
end

