-- ==== Sys2Proof/Machine/Scan.lean ====
section
/-! DEFINITION. The scan engine (42_scan_engine.md): REFRESH and the micro-steps of the scan sequencer, one definition for each
phase. -/

namespace Sys2Proof.Machine

/-- The step that accepts a REFRESH (42_scan_engine.md R150). -/
def State.startScan (s : State) : State :=
  { s with mode := .scan, phase := .blankOn, row := 0, col := 0, wait := 0 }

/-- REFRESH (42_scan_engine.md R150). -/
def execRefresh (s : State) : Host.Outcome State Fault Refusal :=
  .next s.startScan

/-- `end_of_row()` (42_scan_engine.md R165). -/
def State.endOfRow (s : State) : State :=
  if s.row = 7 then { s with mode := .idle, phase := .blankOn, row := 0, col := 0, wait := 0 }
  else { s with row := s.row + 1, phase := .blankOn }

/-- Phase BLANK_ON (42_scan_engine.md R154). -/
def microBlankOn (s : State) : State :=
  { s.emit .oe true with phase := .setAddr }

/-- Phase SET_ADDR (42_scan_engine.md R155). -/
def microSetAddr (s : State) : State :=
  { ((s.emit .a (s.row.getLsbD 0)).emit .b (s.row.getLsbD 1)).emit .c (s.row.getLsbD 2) with
    col := 0, phase := .colUp }

/-- Phase COL_UP (42_scan_engine.md R156). -/
def microColUp (s : State) : State :=
  let p := s.codec (s.cell s.col (upperRow s.row))
  { ((s.emit .rUp p.r).emit .gUp p.g).emit .bUp p.b with phase := .colLo }

/-- Phase COL_LO (42_scan_engine.md R157). -/
def microColLo (s : State) : State :=
  let p := s.codec (s.cell s.col (lowerRow s.row))
  { ((s.emit .rLo p.r).emit .gLo p.g).emit .bLo p.b with phase := .clkHi }

/-- Phase CLK_HI (42_scan_engine.md R159). -/
def microClkHi (s : State) : State :=
  { s.emit .clk true with phase := .clkLo }

/-- Phase CLK_LO (42_scan_engine.md R160). -/
def microClkLo (s : State) : State :=
  if s.col = 31 then { s.emit .clk false with phase := .latHi }
  else { s.emit .clk false with col := s.col + 1, phase := .colUp }

/-- Phase LAT_HI (42_scan_engine.md R161). -/
def microLatHi (s : State) : State :=
  { s.emit .lat true with phase := .latLo }

/-- Phase LAT_LO (42_scan_engine.md R162). -/
def microLatLo (s : State) : State :=
  { s.emit .lat false with phase := .blankOff }

/-- Phase BLANK_OFF (42_scan_engine.md R163). -/
def microBlankOff (s : State) : State :=
  if s.dwell = 0 then (s.emit .oe false).endOfRow
  else { s.emit .oe false with wait := s.dwell, phase := .rowHold }

/-- Phase ROW_HOLD (42_scan_engine.md R164). The step never begins with `wait = 0`; DESIGN CHOICE, unsafe outside the
invariant: there the 16-bit decrement would wrap (notes/assumptions/8.md). -/
def microRowHold (s : State) : State :=
  let t := { s with wait := s.wait - 1 }
  if t.wait = 0 then t.endOfRow else t

/-- The micro-step named by `phase` (42_scan_engine.md R152). -/
def microStep (s : State) : State :=
  match s.phase with
  | .blankOn => microBlankOn s
  | .setAddr => microSetAddr s
  | .colUp => microColUp s
  | .colLo => microColLo s
  | .clkHi => microClkHi s
  | .clkLo => microClkLo s
  | .latHi => microLatHi s
  | .latLo => microLatLo s
  | .blankOff => microBlankOff s
  | .rowHold => microRowHold s

end Sys2Proof.Machine
end

