-- ==== Sys2Proof/Machine/Dispatch.lean ====
section
/-! DEFINITION. The meaning of an accepted command, one arm for each constructor of Instr. -/

namespace Sys2Proof.Machine

def exec (i : Instr) (s : State) : Host.Outcome State Fault Refusal :=
  match i with
  | .setpix x y k => Sys2Proof.Machine.execSetpix x y k s
  | .fillrect x1 y1 x2 y2 k => Sys2Proof.Machine.execFillrect x1 y1 x2 y2 k s
  | .clear => Sys2Proof.Machine.execClear s
  | .rdpix x y => Sys2Proof.Machine.execRdpix x y s
  | .refresh => Sys2Proof.Machine.execRefresh s
  | .wrdwell n => Sys2Proof.Machine.execWrdwell n s
  | .rddwell => Sys2Proof.Machine.execRddwell s

end Sys2Proof.Machine
end

