-- ==== Sys2Proof/Machine/Cycle.lean ====
section
/-! DEFINITION. One clock cycle of the block (00_scope.md R15): reset, or by the mode an accepted command, an idle step, a scan
micro-step or the quiescence of FAULT. -/

namespace Sys2Proof.Machine

/-- An accepted word is decoded and executed in the same step; a word that spells no command raises ILLEGAL
(30_encoding.md R81, R94; 60_exceptions.md R205). -/
def acceptWord (w : Word) (s : State) : Host.Outcome State Fault Refusal :=
  match decode w with
  | .ok i => exec i s
  | .error _ => .next (s.raiseFault .illegal)

/-- A step in mode IDLE: the presented command, if there is one (30_encoding.md R81, R82). -/
def idleStep (p : Pins) (s : State) : Host.Outcome State Fault Refusal :=
  if p.cmdValid then acceptWord p.cmdData s else .next s

/-- A step in mode FAULT does nothing (60_exceptions.md R208). -/
def faultStep (s : State) : State := s

/-- One clock cycle. Reset has priority over everything (70_reset_and_hazards.md R231). -/
def cycle (s : State) : Host.Outcome State Fault Refusal :=
  if s.pins.rst then .next s.beginStep.resetBlock
  else
    match s.mode with
    | .idle => idleStep s.pins s.beginStep
    | .scan => .next (microStep s.beginStep)
    | .fault => .next (faultStep s.beginStep)

/-- The host's next action is to present this word until it is accepted, and the block can accept it: `cmd_ready = 1` holds
exactly in mode IDLE (30_encoding.md R81, R82). -/
def State.presentWord (s : State) (w : Word) : State :=
  { s with mode := .idle, host := .hold w :: s.host }

end Sys2Proof.Machine
end

