-- ==== Sys2Proof/Machine/Step.lean ====
section
/-! DEFINITION. One step of the machine, and where the step takes its next command from. -/

namespace Sys2Proof.Machine

/-- One step is one clock cycle of the block (00_scope.md R15). -/
def step (s : State) : Host.Outcome State Fault Refusal := cycle s

/-- The opcode-table word presented by the host as its next command (notes/assumptions/4.md). -/
def State.withFetchWord (s : State) (nbits w : Nat) : State := s.presentWord (tableWord nbits w)

end Sys2Proof.Machine
end

