-- ==== Sys2Proof/Machine/Panel.lean ====
section
/-! DEFINITION. The informative panel model of 42_scan_engine.md R178: an observer of the panel lines OUTSIDE the block (00_scope.md
R3, R15). It is no part of State and no step depends on it. The two open parameters PANEL_SHIFT_EDGE and PANEL_COLUMN_ORDER
(00_scope.md R11, 92_eei_decisions.md D25) are arguments, and so is what the panel holds before it is first driven
(notes/assumptions/11.md). -/

namespace Sys2Proof.Machine

/-- The open parameter PANEL_SHIFT_EDGE: the CLK edge on which the panel samples (00_scope.md R11). -/
inductive ShiftEdge where
  | rising
  | falling
deriving DecidableEq, Repr

/-- The open parameter PANEL_COLUMN_ORDER: the physical column the first shifted column reaches (00_scope.md R11). -/
inductive ColumnOrder where
  | firstAtZero
  | firstAtLast
deriving DecidableEq, Repr

/-- The panel: one 32-cell shift register per half, the newest cell first, and the driver of each of the 16 rows. -/
structure Panel where
  shiftUp : List Rgb
  shiftLo : List Rgb
  drivers : Vector (List Rgb) 16
deriving DecidableEq, Repr

/-- CLK made the sampled edge between two line levels. -/
def shiftEdgeSeen (edge : ShiftEdge) (before after : Lines) : Bool :=
  match edge with
  | .rising => !before.clk && after.clk
  | .falling => before.clk && !after.clk

/-- The row `{C, B, A}` (42_scan_engine.md R178). -/
def Lines.rowAddress (o : Lines) : BitVec 3 :=
  BitVec.ofBool o.c ++ BitVec.ofBool o.b ++ BitVec.ofBool o.a

/-- Each CLK pulse shifts the six color levels in (42_scan_engine.md R178). -/
def Panel.shiftIn (p : Panel) (o : Lines) : Panel :=
  { p with
    shiftUp := (⟨o.rUp, o.gUp, o.bUp⟩ :: p.shiftUp).take Config.cols
    shiftLo := (⟨o.rLo, o.gLo, o.bLo⟩ :: p.shiftLo).take Config.cols }

/-- LAT copies the registers into the drivers of rows `{C,B,A}` and `{C,B,A} + 8` (42_scan_engine.md R178). -/
def Panel.latch (p : Panel) (o : Lines) : Panel :=
  { p with
    drivers := (p.drivers.setIfInBounds o.rowAddress.toNat p.shiftUp).setIfInBounds
      (o.rowAddress.toNat + Config.half) p.shiftLo }

/-- The panel sees the lines change from one step's levels to the next step's. DESIGN CHOICE, unsafe as a claim about a real panel,
since 42_scan_engine.md R178 does not say it: where other lines change in the same step as the sampled CLK edge, as in a reset while
`CLK = 1` for a panel that samples the fall, the color levels shifted in are those AFTER the step; and a step that both shifts and
latches shifts first and latches under the address after the step (notes/assumptions/11.md). -/
def Panel.observe (edge : ShiftEdge) (p : Panel) (before after : Lines) : Panel :=
  let shifted := if shiftEdgeSeen edge before after then p.shiftIn after else p
  if !before.lat && after.lat then shifted.latch after else shifted

/-- The panel sees the lines of a run, one set of levels a step. -/
def Panel.observeAll (edge : ShiftEdge) : Panel → Lines → List Lines → Panel
  | p, _, [] => p
  | p, before, after :: rest => Panel.observeAll edge (p.observe edge before after) after rest

/-- What the driver of row `y` holds for physical column `x`, if anything has been shifted that far. -/
def Panel.pixel (order : ColumnOrder) (p : Panel) (x : BitVec 5) (y : BitVec 4) : Option Rgb :=
  let cells := p.drivers[y.toNat]'y.isLt
  match order with
  | .firstAtZero => cells[Config.cols - 1 - x.toNat]?
  | .firstAtLast => cells[x.toNat]?

/-- `OE = 0` lights the selected row of each half (42_scan_engine.md R178). -/
def Lines.lights (o : Lines) (y : BitVec 4) : Bool :=
  !o.oe && (y.setWidth 3 == o.rowAddress)

end Sys2Proof.Machine
end

