-- ==== Sys2Proof/Machine/Assembler.lean ====
section
/-! DEFINITION. The assembler notation (30_encoding.md R99) and the pseudo-instructions (30_encoding.md R100): what the host does
at the port for each line. A line is a list of characters. What R99 leaves open of the text is in notes/assumptions/15.md. -/

namespace Sys2Proof.Machine

/-- A line of a program: a command or a pseudo-instruction (30_encoding.md R99, R100). -/
inductive AsmLine where
  | command (c : AsmCommand)
  | fillall (k : Nat)
  | snapshot
  | waitidle
  | refreshloop
deriving DecidableEq, Repr

/-- The commands of SNAPSHOT: `RDPIX x, y`, y outer and x inner (30_encoding.md R100, 40_framebuffer.md R130). -/
def snapshotCommands : List Instr :=
  (List.range Config.rows).flatMap fun y =>
    (List.range Config.cols).map fun x => .rdpix (.ofNat 5 x) (.ofNat 4 y)

/-- The host holds each command until it is accepted and then presents the next (30_encoding.md R81). -/
def holdAll (cs : List Instr) : List HostAction := cs.map fun i => .hold (encode i)

/-- What the host does for a line; an operand outside its field's range is refused (30_encoding.md R99, R100). -/
def AsmLine.expand : AsmLine → Option (List HostAction)
  | .command c => c.assemble.map fun i => holdAll [i]
  | .fillall k => (AsmCommand.fillrect 0 0 32 16 k).assemble.map fun i => holdAll [i]
  | .snapshot => some (holdAll snapshotCommands)
  | .waitidle => some [.waitIdle]
  | .refreshloop => some [.always (encode .refresh)]

/-- The host's actions for a program; one refused line refuses it. -/
def assembleProgram (lines : List AsmLine) : Option (List HostAction) :=
  (lines.mapM AsmLine.expand).map List.flatten

/-- A blank inside a line. -/
def isBlank (c : Char) : Bool := c == ' ' || c == '\t' || c == '\r'

/-- The characters without the blanks at both ends. -/
def trimBlanks (cs : List Char) : List Char :=
  ((cs.dropWhile isBlank).reverse.dropWhile isBlank).reverse

/-- The parts of a list of characters between its commas. -/
def splitCommas : List Char → List (List Char)
  | [] => [[]]
  | c :: rest =>
    if c == ',' then [] :: splitCommas rest
    else
      match splitCommas rest with
      | [] => [[c]]
      | part :: parts => (c :: part) :: parts

/-- The value of a digit, hexadecimal digits in either case. -/
def digitValue (c : Char) : Option Nat :=
  let n := c.toNat
  if 48 ≤ n ∧ n ≤ 57 then some (n - 48)
  else if 65 ≤ n ∧ n ≤ 70 then some (n - 55)
  else if 97 ≤ n ∧ n ≤ 102 then some (n - 87)
  else none

/-- Digits of a base read after a value read so far. -/
def readDigits (base : Nat) : Nat → List Char → Option Nat
  | acc, [] => some acc
  | acc, c :: rest =>
    match digitValue c with
    | some d => if d < base then readDigits base (base * acc + d) rest else none
    | none => none

/-- An operand: decimal, or hexadecimal after `0x` (30_encoding.md R99). -/
def readNumber (cs : List Char) : Option Nat :=
  match cs with
  | [] => none
  | '0' :: 'x' :: [] => none
  | '0' :: 'x' :: rest => readDigits 16 0 rest
  | c :: rest => readDigits 10 0 (c :: rest)

/-- The operands of a line, separated by commas (30_encoding.md R99). -/
def readOperands (cs : List Char) : Option (List Nat) :=
  match trimBlanks cs with
  | [] => some []
  | c :: rest => (splitCommas (c :: rest)).mapM fun part => readNumber (trimBlanks part)

/-- The line of a mnemonic with its operands (30_encoding.md R99, R100). -/
def lineOf (mnemonic : List Char) (operands : List Nat) : Option AsmLine :=
  match mnemonic, operands with
  | ['S', 'E', 'T', 'P', 'I', 'X'], [x, y, k] => some (.command (.setpix x y k))
  | ['F', 'I', 'L', 'L', 'R', 'E', 'C', 'T'], [x1, y1, x2, y2, k] => some (.command (.fillrect x1 y1 x2 y2 k))
  | ['C', 'L', 'E', 'A', 'R'], [] => some (.command .clear)
  | ['R', 'D', 'P', 'I', 'X'], [x, y] => some (.command (.rdpix x y))
  | ['R', 'E', 'F', 'R', 'E', 'S', 'H'], [] => some (.command .refresh)
  | ['W', 'R', 'D', 'W', 'E', 'L', 'L'], [n] => some (.command (.wrdwell n))
  | ['R', 'D', 'D', 'W', 'E', 'L', 'L'], [] => some (.command .rddwell)
  | ['F', 'I', 'L', 'L', 'A', 'L', 'L'], [k] => some (.fillall k)
  | ['S', 'N', 'A', 'P', 'S', 'H', 'O', 'T'], [] => some .snapshot
  | ['W', 'A', 'I', 'T', 'I', 'D', 'L', 'E'], [] => some .waitidle
  | ['R', 'E', 'F', 'R', 'E', 'S', 'H', 'L', 'O', 'O', 'P'], [] => some .refreshloop
  | _, _ => none

/-- One line of assembler text: `some none` for a line that holds no command, `none` for a line that is refused
(30_encoding.md R99: the mnemonic, then its operands; `;` starts a comment). -/
def readLine (cs : List Char) : Option (Option AsmLine) :=
  match trimBlanks (cs.takeWhile fun c => !(c == ';')) with
  | [] => some none
  | c :: rest =>
    let mnemonic := (c :: rest).takeWhile fun d => !isBlank d
    let operands := (c :: rest).dropWhile fun d => !isBlank d
    match readOperands operands with
    | some ns => (lineOf mnemonic ns).map some
    | none => none

end Sys2Proof.Machine
end

