-- ==== Sys2Proof/Machine/Trace.lean ====
section
/-! DEFINITION. What a run of the block shows (92_eei_decisions.md D21): the write trace, the responses, the pin vectors and the
status outputs, one entry a step; and the write trace of a refresh as the function of 42_scan_engine.md R168. -/

namespace Sys2Proof.Machine

/-- The states after each of the first `n` steps. -/
def runStates : Nat → State → List State
  | 0, _ => []
  | n + 1, s =>
    match step s with
    | .next t => t :: runStates n t
    | .fault _ => []
    | .refused _ => []

/-- The state after `n` steps. -/
def stateAfter : Nat → State → State
  | 0, s => s
  | n + 1, s =>
    match step s with
    | .next t => stateAfter n t
    | .fault _ => s
    | .refused _ => s

/-- The write trace: the write list of each step (00_scope.md R17). -/
def writeTrace (n : Nat) (s : State) : List WriteList := (runStates n s).map fun t => t.writes

/-- The responses in command order, one for each RDPIX or RDDWELL executed (30_encoding.md R84). -/
def responses (n : Nat) (s : State) : List Word := (runStates n s).filterMap fun t => t.rsp

/-- The pin vector after each step (00_scope.md R17). -/
def pinTrace (n : Nat) (s : State) : List (BitVec 12) := (runStates n s).map fun t => t.out.pinVector

/-- The steps after which the panel is lit, `OE = 0` (70_reset_and_hazards.md R248). -/
def litSteps (n : Nat) (s : State) : Nat := (runStates n s).countP fun t => !t.out.oe

/-- Steps of one REFRESH, the accepting step included (42_scan_engine.md R166, 70_reset_and_hazards.md R247). -/
def refreshSteps (dwell : Nat) : Nat := 1 + Config.half * (133 + dwell)

/-- The host asserts no reset by this action. -/
def HostAction.keepsRunning (h : HostAction) : Bool := !h.pins.rst

/-- The host asserts no reset in anything it will do. -/
def State.noReset (s : State) : Bool := s.host.all HostAction.keepsRunning

/-- The micro-steps of one column: `(c, r)` above, `(c, r + 8)` below, one clock pulse (42_scan_engine.md R168). -/
def columnTrace (fb : Memory) (r c : Nat) : List WriteList :=
  let up := codecBits (fb.read (gridIndex c r))
  let lo := codecBits (fb.read (gridIndex c (r + Config.half)))
  [ [(.rUp, up.r), (.gUp, up.g), (.bUp, up.b)], [(.rLo, lo.r), (.gLo, lo.g), (.bLo, lo.b)],
    [(.clk, true)], [(.clk, false)] ]

/-- The micro-steps of one scan row (42_scan_engine.md R168). -/
def rowTrace (fb : Memory) (dwell r : Nat) : List WriteList :=
  [ [(.oe, true)], [(.a, r.testBit 0), (.b, r.testBit 1), (.c, r.testBit 2)] ] ++
  (List.range Config.cols).flatMap (columnTrace fb r) ++
  [ [(.lat, true)], [(.lat, false)], [(.oe, false)] ] ++ List.replicate dwell []

/-- `refresh_trace(fb, D)` (42_scan_engine.md R168). -/
def refreshTrace (fb : Memory) (dwell : Nat) : List WriteList :=
  [[]] ++ (List.range Config.half).flatMap (rowTrace fb dwell)

/-- One line of the board dump: the 32 values of a row in decimal, one space between two (40_framebuffer.md R131). -/
def dumpRow (s : State) (y : Nat) : List Char :=
  (List.range Config.cols).flatMap fun x =>
    (if x = 0 then [] else [' ']) ++ Nat.toDigits 10 (s.fb.read (gridIndex x y)).toNat

/-- The board dump, the host's text of a SNAPSHOT, one row a line (40_framebuffer.md R131). Host software (00_scope.md R8). -/
def boardDump (s : State) : List Char :=
  (List.range Config.rows).flatMap fun y => dumpRow s y ++ ['\n']

end Sys2Proof.Machine
end

