-- ==== Sys2Proof/Safety.lean ====
section
/-! DEFINITION. What a well-formed state of the block is, when a run has ended well or badly, and what a sequence of commands is
to leave behind, said of the commands alone and without the block. -/

namespace Sys2Proof.Machine

/-- The sequencer holds its reset and IDLE values (10_state.md R38). -/
def State.sequencerIdle (s : State) : Prop :=
  s.phase = .blankOn ∧ s.row = 0 ∧ s.col = 0 ∧ s.wait = 0

/-- The phases that follow the last column of a row (42_scan_engine.md R152). -/
def Phase.afterColumns : Phase → Bool
  | .latHi => true
  | .latLo => true
  | .blankOff => true
  | .rowHold => true
  | .blankOn => false
  | .setAddr => false
  | .colUp => false
  | .colLo => false
  | .clkHi => false
  | .clkLo => false

/-- The phases before which the row's BLANK_ON has run and before which its BLANK_OFF has not (42_scan_engine.md R174). -/
def Phase.blanked : Phase → Bool
  | .setAddr => true
  | .colUp => true
  | .colLo => true
  | .clkHi => true
  | .clkLo => true
  | .latHi => true
  | .latLo => true
  | .blankOff => true
  | .blankOn => false
  | .rowHold => false

/-- The phases before which the row's address has been driven (42_scan_engine.md R155). -/
def Phase.addressed : Phase → Bool
  | .colUp => true
  | .colLo => true
  | .clkHi => true
  | .clkLo => true
  | .latHi => true
  | .latLo => true
  | .blankOff => true
  | .rowHold => true
  | .blankOn => false
  | .setAddr => false

/-- The phases before which the column's upper color lines have been driven (42_scan_engine.md R156). -/
def Phase.upperShown : Phase → Bool
  | .colLo => true
  | .clkHi => true
  | .clkLo => true
  | .latHi => true
  | .latLo => true
  | .blankOff => true
  | .rowHold => true
  | .blankOn => false
  | .setAddr => false
  | .colUp => false

/-- The phases before which the column's lower color lines have been driven (42_scan_engine.md R157). -/
def Phase.lowerShown : Phase → Bool
  | .clkHi => true
  | .clkLo => true
  | .latHi => true
  | .latLo => true
  | .blankOff => true
  | .rowHold => true
  | .blankOn => false
  | .setAddr => false
  | .colUp => false
  | .colLo => false

/-- The row-address lines show a scan row (42_scan_engine.md R155). -/
def Lines.showAddress (o : Lines) (r : BitVec 3) : Prop :=
  o.a = r.getLsbD 0 ∧ o.b = r.getLsbD 1 ∧ o.c = r.getLsbD 2

/-- The upper color lines show a codec entry (42_scan_engine.md R156). -/
def Lines.showUpper (o : Lines) (p : Rgb) : Prop := o.rUp = p.r ∧ o.gUp = p.g ∧ o.bUp = p.b

/-- The lower color lines show a codec entry (42_scan_engine.md R157). -/
def Lines.showLower (o : Lines) (p : Rgb) : Prop := o.rLo = p.r ∧ o.gLo = p.g ∧ o.bLo = p.b

/-- The invariant of the block: what every state after a reset satisfies. -/
structure Inv (s : State) : Prop where
  /-- The frame buffer is in canonical form (notes/assumptions/2.md). -/
  memory : s.fb.wf = true
  /-- The ROM holds its contents (10_state.md R25, 41_color_codec.md R140). -/
  rom : s.lut = codecRom
  /-- `cause ≠ 0` exactly when the mode is FAULT (10_state.md R33). -/
  causeOfFault : s.cause ≠ 0 ↔ s.mode = .fault
  /-- Cause code 3 is never produced (10_state.md R33). -/
  causeLegal : s.cause ≠ 3
  /-- Outside SCAN the sequencer holds its IDLE values (10_state.md R38, R39). -/
  sequencer : s.mode ≠ .scan → s.sequencerIdle
  /-- `wait` is at least 1 and at most DWELL when a ROW_HOLD step begins (42_scan_engine.md R163, R164). -/
  waitInHold : s.mode = .scan → s.phase = .rowHold → s.wait ≠ 0 ∧ s.wait ≤ s.dwell
  /-- `wait` is 0 in every other phase (42_scan_engine.md R150, R164, R165). -/
  waitElsewhere : s.phase ≠ .rowHold → s.wait = 0
  /-- The column loop is left at column 31 (10_state.md R37, 42_scan_engine.md R160). -/
  columnDone : s.mode = .scan → s.phase.afterColumns = true → s.col = 31
  /-- CLK is high exactly between CLK_HI and CLK_LO (42_scan_engine.md R172). -/
  clock : s.out.clk = true ↔ s.mode = .scan ∧ s.phase = .clkLo
  /-- LAT is high exactly between LAT_HI and LAT_LO (42_scan_engine.md R173). -/
  latch : s.out.lat = true ↔ s.mode = .scan ∧ s.phase = .latLo
  /-- The panel is blanked from a row's BLANK_ON to its BLANK_OFF (42_scan_engine.md R174). -/
  blanked : s.mode = .scan → s.phase.blanked = true → s.out.oe = true
  /-- The row is lit while it is held (42_scan_engine.md R174). -/
  lit : s.mode = .scan → s.phase = .rowHold → s.out.oe = false
  /-- The panel is blanked in FAULT (60_exceptions.md R208). -/
  faultBlanked : s.mode = .fault → s.out.oe = true
  /-- The address lines show the scan row (42_scan_engine.md R155, R169). -/
  address : s.mode = .scan → s.phase.addressed = true → s.out.showAddress s.row
  /-- The upper color lines show the upper pixel of the column (42_scan_engine.md R156, R159). -/
  upper : s.mode = .scan → s.phase.upperShown = true →
    s.out.showUpper (codecBits (s.cell s.col (upperRow s.row)))
  /-- The lower color lines show the lower pixel of the column (42_scan_engine.md R157, R159). -/
  lower : s.mode = .scan → s.phase.lowerShown = true →
    s.out.showLower (codecBits (s.cell s.col (lowerRow s.row)))

/-- A run has ended well: the host has no more to do and the block is in IDLE (60_exceptions.md R221). DESIGN CHOICE, unsafe: "no
more commands to present" is read as an empty host list, so a host with only WAITIDLE or quiet driven steps left has not ended
until those are used up, which R221 leaves open (notes/assumptions/18.md). -/
def State.endedWell (s : State) : Prop := s.host = [] ∧ s.mode = .idle

/-- A run has ended badly: the block is in FAULT (60_exceptions.md R221). -/
def State.endedBadly (s : State) : Prop := s.mode = .fault

/-- The command raises no RANGE fault (40_framebuffer.md R117). -/
def inGrid : Instr → Bool
  | .setpix _ _ _ => true
  | .fillrect x1 y1 x2 y2 _ => !rectOutOfRange x1 y1 x2 y2
  | .clear => true
  | .rdpix _ _ => true
  | .refresh => true
  | .wrdwell _ => true
  | .rddwell => true

/-- What cell `(x, y)` holds after commands given LATEST FIRST: the last write of it, or 0 (20_memory.md R73). -/
def lastWrite (x : BitVec 5) (y : BitVec 4) : List Instr → Color
  | [] => 0
  | .setpix x' y' k :: earlier => if x' = x ∧ y' = y then k else lastWrite x y earlier
  | .fillrect x1 y1 x2 y2 k :: earlier =>
    if (x1.toNat ≤ x.toNat ∧ x.toNat < x2.toNat) ∧ (y1.toNat ≤ y.toNat ∧ y.toNat < y2.toNat) then k
    else lastWrite x y earlier
  | .clear :: _ => 0
  | .rdpix _ _ :: earlier => lastWrite x y earlier
  | .refresh :: earlier => lastWrite x y earlier
  | .wrdwell _ :: earlier => lastWrite x y earlier
  | .rddwell :: earlier => lastWrite x y earlier

/-- What DWELL holds after commands given LATEST FIRST: the last WRDWELL, or 5 (43_config.md R194). -/
def lastDwell : List Instr → BitVec 16
  | [] => 5
  | .wrdwell n :: _ => n
  | .setpix _ _ _ :: earlier => lastDwell earlier
  | .fillrect _ _ _ _ _ :: earlier => lastDwell earlier
  | .clear :: earlier => lastDwell earlier
  | .rdpix _ _ :: earlier => lastDwell earlier
  | .refresh :: earlier => lastDwell earlier
  | .rddwell :: earlier => lastDwell earlier

/-- The steps a command takes after the commands `earlier`, latest first (70_reset_and_hazards.md R247). -/
def stepsOf (earlier : List Instr) : Instr → Nat
  | .refresh => refreshSteps (lastDwell earlier).toNat
  | .setpix _ _ _ => 1
  | .fillrect _ _ _ _ _ => 1
  | .clear => 1
  | .rdpix _ _ => 1
  | .wrdwell _ => 1
  | .rddwell => 1

/-- The steps a program takes after the commands `earlier`, latest first. -/
def programSteps : List Instr → List Instr → Nat
  | _, [] => 0
  | earlier, i :: rest => stepsOf earlier i + programSteps (i :: earlier) rest

/-- The responses of one command after the commands `earlier`, latest first (30_encoding.md R84). -/
def responsesOf (earlier : List Instr) : Instr → List Word
  | .rdpix x y => [zext32 (lastWrite x y earlier)]
  | .rddwell => [zext32 (lastDwell earlier)]
  | .setpix _ _ _ => []
  | .fillrect _ _ _ _ _ => []
  | .clear => []
  | .refresh => []
  | .wrdwell _ => []

/-- The responses of a program after the commands `earlier`, latest first. -/
def programResponses : List Instr → List Instr → List Word
  | _, [] => []
  | earlier, i :: rest => responsesOf earlier i ++ programResponses (i :: earlier) rest

end Sys2Proof.Machine
end

