-- ==== Sys2Proof/Certificates/Slice0/Obligations.lean ====
section
/-! DEFINITION. The statements about the block, for the provers. Each formalises the rules its docstring names. -/

open Sys2Proof Sys2Proof.Machine

/-! ### Encoding -/

/-- Every command is read back from its word, with every operand at every value its field admits (30_encoding.md R87 to R94). -/
def Obligations.DecodeOfEncodeIsTheCommand : Prop :=
  ∀ i : Instr, decode (encode i) = .ok i

/-- A word spells at most one command: the one whose word it is (30_encoding.md R94, R97, R98). -/
def Obligations.DecodedWordIsTheCommandsOnlyWord : Prop :=
  ∀ (w : Word) (i : Instr), decode w = .ok i → encode i = w

/-- Which words are ILLEGAL, and why: a reserved opcode, or a defined opcode with a nonzero reserved bit
(30_encoding.md R88 to R91, R95, R96). -/
def Obligations.ReservedOpcodesAndReservedBitsAreIllegal : Prop :=
  ∀ w : Word,
    (decode w = .error .reservedOpcode ↔ (fieldOpcode w = 0 ∨ 8 ≤ (fieldOpcode w).toNat)) ∧
    (decode w = .error .reservedBits ↔
      (fieldOpcode w = 1 ∧ (w.extractLsb' 23 5 ≠ 0 ∨ w.extractLsb' 3 11 ≠ 0)) ∨
      (fieldOpcode w = 2 ∧ w.extractLsb' 23 5 ≠ 0) ∨
      (fieldOpcode w = 3 ∧ w.extractLsb' 0 28 ≠ 0) ∨
      (fieldOpcode w = 4 ∧ (w.extractLsb' 23 5 ≠ 0 ∨ w.extractLsb' 0 14 ≠ 0)) ∨
      (fieldOpcode w = 5 ∧ w.extractLsb' 0 28 ≠ 0) ∨
      (fieldOpcode w = 6 ∧ w.extractLsb' 16 12 ≠ 0) ∨
      (fieldOpcode w = 7 ∧ w.extractLsb' 0 28 ≠ 0))

/-- The thirteen worked encodings of 30_encoding.md R101, each read and written. -/
def Obligations.WorkedEncodingsReadAndWrite : Prop :=
  ∀ p ∈ [ ((.setpix 0 0 1 : Instr), (0x10000001 : Word)), (.setpix 5 3 2, 0x1014C002),
      (.setpix 31 15 7, 0x107FC007), (.fillrect 0 0 32 16 0, 0x20002080),
      (.fillrect 0 0 32 8 1, 0x20002041), (.fillrect 0 8 32 16 2, 0x20022082), (.clear, 0x30000000),
      (.rdpix 0 0, 0x40000000), (.rdpix 31 15, 0x407FC000), (.refresh, 0x50000000),
      (.wrdwell 5, 0x60000005), (.wrdwell 65535, 0x6000FFFF), (.rddwell, 0x70000000) ],
    decode p.2 = .ok p.1 ∧ encode p.1 = p.2

/-- An assembler line gives a command exactly when its operands are that command's, so an operand outside its field's range is
refused and never wrapped (30_encoding.md R99, 40_framebuffer.md R112). -/
def Obligations.AssemblerRefusesOperandsOutOfRange : Prop :=
  ∀ (c : AsmCommand) (i : Instr), c.assemble = some i ↔ c = i.toAsm

/-! ### Reset, the invariant, and the modes -/

/-- A step with `rst = 1` resets the block whatever its mode and whatever is presented (70_reset_and_hazards.md R230). The clause
that the list which holds the buffer is in canonical form is about the model's own choice of representation
(notes/assumptions/2.md) and is no part of R230. -/
def Obligations.ResetStepSetsTheResetValues : Prop :=
  ∀ s : State, s.pins.rst = true →
    ∃ t, step s = .next t ∧ (∀ x y, t.cell x y = 0) ∧ t.fb.wf = true ∧ t.dwell = 5 ∧ t.mode = .idle ∧ t.cause = 0 ∧
      t.phase = .blankOn ∧ t.row = 0 ∧ t.col = 0 ∧ t.wait = 0 ∧ t.out.pinVector = 0x100 ∧
      t.lut = s.lut ∧ t.writes = [] ∧ t.rsp = none

/-- The invariant holds right after reset, from whatever state the reset step began in; the ROM is there from power-up
(10_state.md R25). -/
def Obligations.InvariantHoldsAfterReset : Prop :=
  Inv State.reset ∧
  ∀ s t : State, s.lut = codecRom → s.pins.rst = true → step s = .next t → Inv t

/-- Every step keeps the invariant: the canonical frame buffer, the ROM, the legal causes, the idle sequencer, the dwell counter's
bounds, the levels of CLK, LAT, OE, the address and the color lines in every phase. -/
def Obligations.EveryStepKeepsTheInvariant : Prop :=
  ∀ s t : State, Inv s → step s = .next t → Inv t

/-- Every step answers a next state, and the modes it leads to are those of 10_state.md R31: from IDLE a step that accepts nothing
stays, a REFRESH starts a scan, any other command ends in IDLE or FAULT; a scan ends only in IDLE; FAULT lasts until reset. -/
def Obligations.EveryStepAnswersAndMovesLegally : Prop :=
  ∀ s : State, ∃ t, step s = .next t ∧
    (s.pins.rst = true → t.mode = .idle) ∧
    (s.pins.rst = false → s.mode = .fault → t.mode = .fault) ∧
    (s.pins.rst = false → s.mode = .scan → t.mode = .scan ∨ t.mode = .idle) ∧
    (s.pins.rst = false → s.mode = .idle → s.accepts = false → t.mode = .idle) ∧
    (s.accepts = true → (t.mode = .scan ↔ decode s.pins.cmdData = .ok .refresh)) ∧
    (t.mode = .fault → s.mode = .fault ∨ s.accepts = true)

/-- `cmd_ready = 1` exactly in IDLE, and outside IDLE the word the host presents, and whether it presents one, changes nothing
of the block, which is all of State but the model's own host list (30_encoding.md R82, notes/assumptions/3.md). -/
def Obligations.NoCommandIsAcceptedOutsideIdle : Prop :=
  (∀ s : State, s.cmdReady = true ↔ s.mode = .idle) ∧
  ∀ (s : State) (h h' : List HostAction), s.mode ≠ .idle →
    ({ s with host := h } : State).pins.rst = ({ s with host := h' } : State).pins.rst →
    ∃ t t', step { s with host := h } = .next t ∧ step { s with host := h' } = .next t' ∧
      t' = { t with host := t'.host }

/-- A held word is presented, stays until the step in which the block is ready, and then goes
(30_encoding.md R81, 70_reset_and_hazards.md R240). That the host's actions are a list of State is the model's own choice
(notes/assumptions/3.md). -/
def Obligations.HeldWordStaysUntilAccepted : Prop :=
  ∀ (s t : State) (w : Word) (rest : List HostAction), s.host = .hold w :: rest → step s = .next t →
    s.pins = { rst := false, cmdValid := true, cmdData := w } ∧
    (s.mode = .idle → t.host = rest) ∧ (s.mode ≠ .idle → t.host = s.host)

/-! ### The step and the faults -/

/-- WAITIDLE presents nothing while the block is not ready and no step longer, and REFRESHLOOP's word is presented for ever
(30_encoding.md R100); how these are actions of State's host list is the model's own choice (notes/assumptions/3.md, 14.md). -/
def Obligations.WaitAndLoopActAtThePort : Prop :=
  ∀ (s : State) (w : Word) (rest : List HostAction),
    (s.host = .waitIdle :: rest → s.mode ≠ .idle → s.pins.cmdValid = false ∧ s.hostAfter = s.host) ∧
    (s.host = .waitIdle :: .hold w :: rest → s.mode = .idle →
      s.accepts = true ∧ s.pins.cmdData = w ∧ s.hostAfter = rest) ∧
    (s.host = .always w :: rest →
      s.pins.cmdValid = true ∧ s.pins.cmdData = w ∧ s.pins.rst = false ∧ s.hostAfter = s.host)

/-- An accepted word that decodes to a command runs that command in the same step, on the state whose host has moved on and whose
output ports are empty (30_encoding.md R81, R94); the fields host, writes and rsp are the model's own (notes/assumptions/3.md,
5.md). -/
def Obligations.StepRunsTheDecodedCommand : Prop :=
  ∀ (s : State) (i : Instr), s.accepts = true → decode s.pins.cmdData = .ok i →
    step s = exec i { s with host := s.hostAfter, writes := [], rsp := none }

/-- The opcode-table word placed for the next step is what that step runs; that the host presents it is the model's own choice
(notes/assumptions/4.md). -/
def Obligations.PlacedWordRunsNext : Prop :=
  ∀ (s : State) (nbits w : Nat) (i : Instr), decodeTableWord nbits w = some i →
    step (s.withFetchWord nbits w) = exec i { s with mode := .idle, writes := [], rsp := none }

/-- ILLEGAL: an accepted word that decodes to no command takes the fault, whatever reserved opcode or reserved bit it has
(60_exceptions.md R203, R204, R205, R207). -/
def Obligations.IllegalWordFaults : Prop :=
  ∀ (s : State) (e : Illegal), s.accepts = true → decode s.pins.cmdData = .error e →
    ∃ h, step s = .next { s with
      mode := .fault, cause := 1, out := { s.out with oe := true }, writes := [(.oe, true)], rsp := none,
      host := h }

/-- FAULT is quiescent: nothing is accepted, answered or driven, and every piece of state is kept
(60_exceptions.md R208); the host list is the model's own (notes/assumptions/3.md). -/
def Obligations.FaultModeDoesNothing : Prop :=
  ∀ s : State, Inv s → s.mode = .fault → s.pins.rst = false →
    ∃ t, step s = .next t ∧ t = { s with host := s.hostAfter, writes := [], rsp := none } ∧
      t.cmdReady = false ∧ t.busy = false ∧ t.faultOut = true ∧ t.causeOut = s.cause ∧ t.causeOut ≠ 0 ∧
      t.rspValid = false ∧ t.out.oe = true ∧ (∀ w, s.host.head? = some (.hold w) → t.host = s.host)

/-- Only reset leaves FAULT (60_exceptions.md R209). -/
def Obligations.OnlyResetLeavesFault : Prop :=
  ∀ s t : State, s.mode = .fault → step s = .next t → (t.mode ≠ .fault ↔ s.pins.rst = true)

/-! ### The commands -/

/-- SETPIX completes in every state: the cell holds the code and every other cell, and everything but the frame buffer, is as it
was (40_framebuffer.md R111). -/
def Obligations.SetpixWritesExactlyOneCell : Prop :=
  ∀ (s : State) (x : BitVec 5) (y : BitVec 4) (k : Color), s.fb.wf = true →
    ∃ t, exec (.setpix x y k) s = .next t ∧ t.cell x y = k ∧
      (∀ x' y', ¬(x' = x ∧ y' = y) → t.cell x' y' = s.cell x' y') ∧
      (∀ a, a ≠ cellIndex x y → t.fb.read a = s.fb.read a) ∧ t = { s with fb := t.fb }

/-- A FILLRECT that is not out of range completes: exactly the cells of the half-open rectangle hold the code, and an empty
rectangle changes nothing (40_framebuffer.md R119). -/
def Obligations.FillrectFillsExactlyTheRectangle : Prop :=
  ∀ (s : State) (x1 : BitVec 5) (y1 : BitVec 4) (x2 : BitVec 6) (y2 : BitVec 5) (k : Color), s.fb.wf = true →
    ((x2.toNat ≤ x1.toNat ∨ y2.toNat ≤ y1.toNat) ∨ (x2.toNat ≤ 32 ∧ y2.toNat ≤ 16)) →
    ∃ t, exec (.fillrect x1 y1 x2 y2 k) s = .next t ∧
      (∀ x y, t.cell x y =
        if (x1.toNat ≤ x.toNat ∧ x.toNat < x2.toNat) ∧ (y1.toNat ≤ y.toNat ∧ y.toNat < y2.toNat) then k
        else s.cell x y) ∧
      ((x2.toNat ≤ x1.toNat ∨ y2.toNat ≤ y1.toNat) → t = s) ∧
      (∀ a, (∀ x y, a ≠ cellIndex x y) → t.fb.read a = s.fb.read a) ∧ t = { s with fb := t.fb }

/-- A FILLRECT is out of range exactly when it is non-empty and `x2 > 32` or `y2 > 16`; then it raises RANGE and writes no cell,
and otherwise it raises nothing; for a non-empty rectangle these are the only ways to name a cell outside the grid
(40_framebuffer.md R117). -/
def Obligations.FillrectBeyondTheGridRaisesRange : Prop :=
  ∀ (s : State) (x1 : BitVec 5) (y1 : BitVec 4) (x2 : BitVec 6) (y2 : BitVec 5) (k : Color),
    ((x1.toNat < x2.toNat ∧ y1.toNat < y2.toNat) ∧ (32 < x2.toNat ∨ 16 < y2.toNat) →
      exec (.fillrect x1 y1 x2 y2 k) s = .next { s with
        mode := .fault, cause := 2, out := { s.out with oe := true }, writes := s.writes ++ [(.oe, true)] }) ∧
    (¬((x1.toNat < x2.toNat ∧ y1.toNat < y2.toNat) ∧ (32 < x2.toNat ∨ 16 < y2.toNat)) →
      ∃ t, exec (.fillrect x1 y1 x2 y2 k) s = .next t ∧ t.mode = s.mode ∧ t.cause = s.cause ∧ t.out = s.out ∧
        t.writes = s.writes) ∧
    (x1.toNat < x2.toNat ∧ y1.toNat < y2.toNat →
      ((∃ x y : Nat, (x1.toNat ≤ x ∧ x < x2.toNat) ∧ (y1.toNat ≤ y ∧ y < y2.toNat) ∧ ¬(x < 32 ∧ y < 16)) ↔
        (32 < x2.toNat ∨ 16 < y2.toNat)))

/-- CLEAR completes with every cell 0 and everything but the frame buffer as it was (40_framebuffer.md R122). That the list which
holds the buffer is in canonical form before and is the empty list after is about the model's own choice of representation
(notes/assumptions/2.md) and is no part of R122. -/
def Obligations.ClearZeroesEveryCell : Prop :=
  ∀ s : State, s.fb.wf = true → exec .clear s = .next { s with fb := [] } ∧
    ∀ t, exec .clear s = .next t → ∀ x y, t.cell x y = 0

/-- CLEAR does what FILLRECT 0, 0, 32, 16, 0 does, whose word is 0x20002080 and which FILLALL 0 stands for
(40_framebuffer.md R123). -/
def Obligations.ClearEqualsFillingTheGridWithZero : Prop :=
  (∀ s : State, ∃ t, exec .clear s = .next t ∧ exec (.fillrect 0 0 32 16 0) s = .next t) ∧
  encode (.fillrect 0 0 32 16 0) = 0x20002080 ∧
  (AsmLine.fillall 0).expand = (AsmLine.command (.fillrect 0 0 32 16 0)).expand ∧
  (AsmLine.fillall 0).expand = some [.hold 0x20002080]

/-- RDPIX completes in every state, answers the cell in bits 2:0 with the bits above 0, and has no other effect; a second RDPIX of
the cell answers the same (40_framebuffer.md R126, R127). -/
def Obligations.RdpixAnswersTheCell : Prop :=
  ∀ (s : State) (x : BitVec 5) (y : BitVec 4),
    ∃ t, exec (.rdpix x y) s = .next t ∧ t = { s with rsp := t.rsp } ∧ t.rspValid = true ∧
      t.rspData.toNat = (s.cell x y).toNat ∧ exec (.rdpix x y) t = .next t

/-- WRDWELL and RDDWELL complete in every state; the register keeps every value as written, and RDDWELL answers it in bits 15:0
with the bits above 0 (43_config.md R190, R193). -/
def Obligations.DwellIsWrittenAndAnswered : Prop :=
  ∀ (s : State) (n : BitVec 16),
    exec (.wrdwell n) s = .next { s with dwell := n } ∧
    ∃ t, exec .rddwell s = .next t ∧ t = { s with rsp := t.rsp } ∧ t.rspValid = true ∧
      t.rspData.toNat = s.dwell.toNat

/-- REFRESH completes in every state: the scan is at its beginning, and no line, cell or register is changed by the accepting
step (42_scan_engine.md R150). -/
def Obligations.RefreshStartsTheScan : Prop :=
  ∀ s : State,
    exec .refresh s = .next { s with mode := .scan, phase := .blankOn, row := 0, col := 0, wait := 0 } ∧
    ∀ t, exec .refresh s = .next t → t.busy = true ∧ t.cmdReady = false

/-- Issuing a write twice leaves what issuing it once leaves (20_memory.md R69). -/
def Obligations.WritesAreIdempotent : Prop :=
  ∀ (s t : State) (i : Instr), s.fb.wf = true → inGrid i = true →
    ((∃ x y k, i = .setpix x y k) ∨ (∃ x1 y1 x2 y2 k, i = .fillrect x1 y1 x2 y2 k) ∨ i = .clear ∨
      ∃ n, i = .wrdwell n) →
    exec i s = .next t → exec i t = .next t

/-- The linear index is `16*x + y`, below 512, and every index below 512 names exactly one cell (20_memory.md R61). -/
def Obligations.LinearIndexNamesEachCellOnce : Prop :=
  (∀ x y, cellIndex x y = 16 * x.toNat + y.toNat ∧ cellIndex x y < 512) ∧
  ∀ a, a < 512 → ∃ x y, cellIndex x y = a ∧ ∀ x' y', cellIndex x' y' = a → x' = x ∧ y' = y

/-- With the ROM's contents the codec maps a code to its bits 0, 1 and 2, and the first four codes as the source tests them
(41_color_codec.md R140, R143). -/
def Obligations.CodecGivesTheBitsOfTheCode : Prop :=
  ∀ s : State, s.lut = codecRom →
    (∀ k : Color, s.codec k = { r := k.getLsbD 0, g := k.getLsbD 1, b := k.getLsbD 2 }) ∧
    s.codec 0 = ⟨false, false, false⟩ ∧ s.codec 1 = ⟨true, false, false⟩ ∧ s.codec 2 = ⟨false, true, false⟩ ∧
    s.codec 3 = ⟨true, true, false⟩

/-! ### Who changes what -/

/-- Cells are written only by SETPIX, FILLRECT, CLEAR and reset (10_state.md R22). -/
def Obligations.OnlyWriteCommandsAndResetChangeCells : Prop :=
  ∀ s t : State, step s = .next t → (∃ x y, t.cell x y ≠ s.cell x y) →
    s.pins.rst = true ∨ (s.accepts = true ∧ ∃ i, decode s.pins.cmdData = .ok i ∧
      ((∃ x y k, i = .setpix x y k) ∨ (∃ x1 y1 x2 y2 k, i = .fillrect x1 y1 x2 y2 k) ∨ i = .clear))

/-- DWELL is written only by WRDWELL and reset, so never during a refresh (10_state.md R28, R30). -/
def Obligations.OnlyWrdwellAndResetChangeDwell : Prop :=
  ∀ s t : State, step s = .next t → t.dwell ≠ s.dwell →
    s.pins.rst = true ∨ (s.mode = .idle ∧ s.accepts = true ∧ decode s.pins.cmdData = .ok (.wrdwell t.dwell))

/-- A response is present in exactly the steps that execute an RDPIX or an RDDWELL, and then it is the value read; in every other
step `rsp_valid = 0` and `rsp_data = 0` (30_encoding.md R84). -/
def Obligations.ResponsesComeOnlyFromReads : Prop :=
  ∀ s t : State, step s = .next t →
    (∀ v, t.rsp = some v ↔ s.accepts = true ∧
      ((∃ x y, decode s.pins.cmdData = .ok (.rdpix x y) ∧ v = zext32 (s.cell x y)) ∨
        (decode s.pins.cmdData = .ok .rddwell ∧ v = zext32 s.dwell))) ∧
    (t.rspValid = false → t.rspData = 0)

/-- Each line keeps its level until a step writes it, a step that writes no line leaves them all, and a step in IDLE that raises no
fault writes none (10_state.md R43). -/
def Obligations.LinesKeepTheirLevelUntilWritten : Prop :=
  ∀ s t : State, s.pins.rst = false → step s = .next t →
    (∀ l, (∀ v, (l, v) ∉ t.writes) → t.out.level l = s.out.level l) ∧ (t.writes = [] → t.out = s.out) ∧
    (s.mode = .idle → t.mode ≠ .fault → t.writes = [] ∧ t.out = s.out)

/-- A written line has the level written, each line at most once a step, and only scan micro-steps and the fault entry, which writes
`(OE, 1)` alone, write lines (10_state.md R44). -/
def Obligations.WriteListsSayWhatTheLinesShow : Prop :=
  ∀ s t : State, step s = .next t →
    (∀ l v, (l, v) ∈ t.writes → t.out.level l = v) ∧ (t.writes.map Prod.fst).Nodup ∧
    (t.writes ≠ [] → s.mode = .scan ∨ (s.mode = .idle ∧ t.mode = .fault ∧ t.writes = [(.oe, true)]))

/-- The address and the data lines, the clock and the latch change only while the panel is blanked, before the step and after it
(42_scan_engine.md R153, R174). -/
def Obligations.LinesChangeOnlyWhileBlanked : Prop :=
  ∀ (s t : State) (l : Line), Inv s → s.pins.rst = false → step s = .next t → l ≠ .oe →
    t.out.level l ≠ s.out.level l → s.out.oe = true ∧ t.out.oe = true

/-- CLK rises only on a column whose six color lines already show its two pixels and stay as they are, and LAT rises only after
column 31, under the address of the row (42_scan_engine.md R153, R159, R161). -/
def Obligations.ClockAndLatchRiseOnStableData : Prop :=
  ∀ s t : State, Inv s → s.pins.rst = false → step s = .next t →
    (t.out.clk = true → s.mode = .scan ∧ t.out = { s.out with clk := true } ∧
      t.out.showUpper (codecBits (s.fb.read (16 * s.col.toNat + s.row.toNat))) ∧
      t.out.showLower (codecBits (s.fb.read (16 * s.col.toNat + (s.row.toNat + 8))))) ∧
    (t.out.lat = true → s.mode = .scan ∧ s.col = 31 ∧ t.out = { s.out with lat := true } ∧
      t.out.showAddress s.row)

/-! ### The micro-steps -/

/-- BLANK_ON drives OE to 1, on every row (42_scan_engine.md R154). -/
def Obligations.BlankOnDrivesOe : Prop :=
  ∀ s : State, s.mode = .scan → s.phase = .blankOn → s.pins.rst = false →
    ∃ h, step s = .next { s with
      out := { s.out with oe := true }, writes := [(.oe, true)], rsp := none, host := h, phase := .setAddr }

/-- SET_ADDR drives A, B and C with bits 0, 1 and 2 of the row in one step, so that `A + 2B + 4C` is the row
(42_scan_engine.md R155, R169). -/
def Obligations.SetAddrDrivesTheScanRow : Prop :=
  ∀ s : State, s.mode = .scan → s.phase = .setAddr → s.pins.rst = false →
    ∃ t h, step s = .next t ∧
      t = { s with
        out := { s.out with a := s.row.getLsbD 0, b := s.row.getLsbD 1, c := s.row.getLsbD 2 },
        writes := [(.a, s.row.getLsbD 0), (.b, s.row.getLsbD 1), (.c, s.row.getLsbD 2)], rsp := none,
        host := h, col := 0, phase := .colUp } ∧
      t.out.a.toNat + 2 * t.out.b.toNat + 4 * t.out.c.toNat = s.row.toNat

/-- COL_UP drives the upper color lines from the cell `(col, row)`, the blue line from bit 2 (42_scan_engine.md R156). -/
def Obligations.ColUpDrivesTheUpperPixel : Prop :=
  ∀ (s : State) (k : Color), s.lut = codecRom → s.mode = .scan → s.phase = .colUp → s.pins.rst = false →
    k = s.fb.read (16 * s.col.toNat + s.row.toNat) →
    ∃ h, step s = .next { s with
      out := { s.out with rUp := k.getLsbD 0, gUp := k.getLsbD 1, bUp := k.getLsbD 2 },
      writes := [(.rUp, k.getLsbD 0), (.gUp, k.getLsbD 1), (.bUp, k.getLsbD 2)], rsp := none,
      host := h, phase := .colLo }

/-- COL_LO drives the lower color lines from the cell `(col, row + 8)`, the blue line from bit 2 (42_scan_engine.md R157). -/
def Obligations.ColLoDrivesTheLowerPixel : Prop :=
  ∀ (s : State) (k : Color), s.lut = codecRom → s.mode = .scan → s.phase = .colLo → s.pins.rst = false →
    k = s.fb.read (16 * s.col.toNat + (s.row.toNat + 8)) →
    ∃ h, step s = .next { s with
      out := { s.out with rLo := k.getLsbD 0, gLo := k.getLsbD 1, bLo := k.getLsbD 2 },
      writes := [(.rLo, k.getLsbD 0), (.gLo, k.getLsbD 1), (.bLo, k.getLsbD 2)], rsp := none,
      host := h, phase := .clkHi }

/-- CLK_HI drives CLK to 1; CLK_LO drives it to 0 and goes to the next column, or after column 31 to the latch; the column never
wraps (42_scan_engine.md R159, R160). -/
def Obligations.ClockPulseAdvancesTheColumn : Prop :=
  ∀ s : State, s.mode = .scan → s.pins.rst = false →
    (s.phase = .clkHi → ∃ h, step s = .next { s with
      out := { s.out with clk := true }, writes := [(.clk, true)], rsp := none, host := h,
      phase := .clkLo }) ∧
    (s.phase = .clkLo → s.col = 31 → ∃ h, step s = .next { s with
      out := { s.out with clk := false }, writes := [(.clk, false)], rsp := none, host := h,
      phase := .latHi }) ∧
    (s.phase = .clkLo → s.col ≠ 31 → ∃ (c : BitVec 5) (h : List HostAction), c.toNat = s.col.toNat + 1 ∧ step s = .next { s with
      out := { s.out with clk := false }, writes := [(.clk, false)], rsp := none, host := h,
      col := c, phase := .colUp })

/-- LAT_HI drives LAT to 1 and LAT_LO drives it to 0 (42_scan_engine.md R161, R162). -/
def Obligations.LatchPulseIsHighThenLow : Prop :=
  ∀ s : State, s.mode = .scan → s.pins.rst = false →
    (s.phase = .latHi → ∃ h, step s = .next { s with
      out := { s.out with lat := true }, writes := [(.lat, true)], rsp := none, host := h,
      phase := .latLo }) ∧
    (s.phase = .latLo → ∃ h, step s = .next { s with
      out := { s.out with lat := false }, writes := [(.lat, false)], rsp := none, host := h,
      phase := .blankOff })

/-- BLANK_OFF drives OE to 0 and holds the row for DWELL units, or with `DWELL = 0` ends it at once
(42_scan_engine.md R163, R165). -/
def Obligations.BlankOffLightsTheRow : Prop :=
  ∀ s : State, s.mode = .scan → s.phase = .blankOff → s.pins.rst = false →
    (s.dwell ≠ 0 → ∃ h, step s = .next { s with
      out := { s.out with oe := false }, writes := [(.oe, false)], rsp := none, host := h,
      wait := s.dwell, phase := .rowHold }) ∧
    (s.dwell = 0 → s.row = 7 → ∃ h, step s = .next { s with
      out := { s.out with oe := false }, writes := [(.oe, false)], rsp := none, host := h,
      mode := .idle, phase := .blankOn, row := 0, col := 0, wait := 0 }) ∧
    (s.dwell = 0 → s.row ≠ 7 → ∃ (r : BitVec 3) (h : List HostAction), r.toNat = s.row.toNat + 1 ∧ step s = .next { s with
      out := { s.out with oe := false }, writes := [(.oe, false)], rsp := none, host := h,
      row := r, phase := .blankOn })

/-- ROW_HOLD counts one unit down without writing a line, and the last unit ends the row; the state is one that a run reaches,
where `wait` is at least 1 (42_scan_engine.md R164, R165). -/
def Obligations.RowHoldCountsDown : Prop :=
  ∀ s : State, Inv s → s.mode = .scan → s.phase = .rowHold → s.pins.rst = false →
    (s.wait ≠ 1 → ∃ (u : BitVec 16) (h : List HostAction), u.toNat + 1 = s.wait.toNat ∧ step s = .next { s with
      writes := [], rsp := none, host := h, wait := u }) ∧
    (s.wait = 1 → s.row = 7 → ∃ h, step s = .next { s with
      writes := [], rsp := none, host := h,
      mode := .idle, phase := .blankOn, row := 0, col := 0, wait := 0 }) ∧
    (s.wait = 1 → s.row ≠ 7 → ∃ (r : BitVec 3) (h : List HostAction), r.toNat = s.row.toNat + 1 ∧ step s = .next { s with
      writes := [], rsp := none, host := h, row := r, phase := .blankOn, wait := 0 })

/-! ### A whole refresh -/

/-- The write trace of a refresh is `refresh_trace(fb, DWELL)` (42_scan_engine.md R168). -/
def Obligations.RefreshWritesTheRefreshTrace : Prop :=
  ∀ s : State, s.lut = codecRom → s.accepts = true → decode s.pins.cmdData = .ok .refresh → s.noReset = true →
    writeTrace (refreshSteps s.dwell.toNat) s = refreshTrace s.fb s.dwell.toNat

/-- A refresh takes `1 + 8 × (133 + DWELL)` steps: the block is busy after each of them but the last, and ready after the last,
with the frame buffer and DWELL as they were (42_scan_engine.md R166, 70_reset_and_hazards.md R247). -/
def Obligations.RefreshTakesItsCountOfSteps : Prop :=
  ∀ s : State, s.accepts = true → decode s.pins.cmdData = .ok .refresh → s.noReset = true →
    (∀ n, 0 < n → n < refreshSteps s.dwell.toNat → (stateAfter n s).busy = true) ∧
    (stateAfter (refreshSteps s.dwell.toNat) s).cmdReady = true ∧
    (∀ n, n ≤ refreshSteps s.dwell.toNat → (stateAfter n s).fb = s.fb ∧ (stateAfter n s).dwell = s.dwell) ∧
    (stateAfter (refreshSteps s.dwell.toNat) s).sequencerIdle

/-- After a refresh the lines hold the address of row 7, OE, CLK and LAT at 0, and the colors of the last column's two pixels
(42_scan_engine.md R176). -/
def Obligations.LinesAfterARefresh : Prop :=
  ∀ s : State, Inv s → s.accepts = true → decode s.pins.cmdData = .ok .refresh → s.noReset = true →
    ∃ o, o = (stateAfter (refreshSteps s.dwell.toNat) s).out ∧
      o.a = true ∧ o.b = true ∧ o.c = true ∧ o.oe = false ∧ o.clk = false ∧ o.lat = false ∧
      o.showUpper (codecBits (s.cell 31 7)) ∧ o.showLower (codecBits (s.cell 31 15))

/-- Two refreshes of the same buffer with the same DWELL write the same trace, whatever the lines held before, and from the end of
row 0's first COL_LO step on the pin vectors agree too (42_scan_engine.md R175). -/
def Obligations.RefreshCarriesNothingOver : Prop :=
  ∀ s s' : State, Inv s → Inv s' → (∀ x y, s.cell x y = s'.cell x y) → s.dwell = s'.dwell →
    s.accepts = true → decode s.pins.cmdData = .ok .refresh → s.noReset = true →
    s'.accepts = true → decode s'.pins.cmdData = .ok .refresh → s'.noReset = true →
    writeTrace (refreshSteps s.dwell.toNat) s = writeTrace (refreshSteps s.dwell.toNat) s' ∧
    (pinTrace (refreshSteps s.dwell.toNat) s).drop 4 = (pinTrace (refreshSteps s.dwell.toNat) s').drop 4

/-- One refresh writes OE 16 times, the address lines 24 times, CLK 512 times, the color lines 1536 times and LAT 16 times, 2104
writes in all (42_scan_engine.md R167). -/
def Obligations.RefreshWriteCounts : Prop :=
  ∀ s : State, s.lut = codecRom → s.accepts = true → decode s.pins.cmdData = .ok .refresh → s.noReset = true →
    ∃ ls, ls = (writeTrace (refreshSteps s.dwell.toNat) s).flatten.map Prod.fst ∧
      ls.count .oe = 16 ∧ ls.count .a = 8 ∧ ls.count .b = 8 ∧ ls.count .c = 8 ∧ ls.count .clk = 512 ∧
      ls.count .lat = 16 ∧ ls.count .rUp = 256 ∧ ls.count .gUp = 256 ∧ ls.count .bUp = 256 ∧
      ls.count .rLo = 256 ∧ ls.count .gLo = 256 ∧ ls.count .bLo = 256 ∧ ls.length = 2104

/-- In a refresh each of the eight scan rows, which takes `133 + DWELL` steps, shows `OE = 0` after `DWELL + 1` of them; the
first row begins with the step after the accepting one (70_reset_and_hazards.md R248). -/
def Obligations.RefreshLightsEachRowForDwellPlusOne : Prop :=
  ∀ (s : State) (r : Nat), s.accepts = true → decode s.pins.cmdData = .ok .refresh → s.noReset = true → r < 8 →
    (stateAfter (1 + r * (133 + s.dwell.toNat)) s).row.toNat = r ∧
    litSteps (133 + s.dwell.toNat) (stateAfter (1 + r * (133 + s.dwell.toNat)) s) = s.dwell.toNat + 1

/-- The informative panel, whichever edge it samples on and whichever way its columns run, holds in the drivers of its 16 rows the
colors of the frame buffer after a refresh (42_scan_engine.md R158, R178); the panel is the informative model of R178 as
notes/assumptions/11.md makes it one. -/
def Obligations.PanelHoldsTheBufferAfterARefresh : Prop :=
  ∀ (s : State) (edge : ShiftEdge) (p : Panel), Inv s → s.accepts = true → decode s.pins.cmdData = .ok .refresh →
    s.noReset = true →
    ∃ q, q = Panel.observeAll edge p s.out ((runStates (refreshSteps s.dwell.toNat) s).map fun t => t.out) ∧
      ∀ (x : BitVec 5) (y : BitVec 4), q.pixel .firstAtZero x y = some (codecBits (s.cell x y)) ∧
        q.pixel .firstAtLast (31 - x) y = some (codecBits (s.cell x y))

/-! ### Programs of commands -/

/-- SNAPSHOT answers the whole buffer in row-major order: response `n` is the cell `(n mod 32, n div 32)`
(40_framebuffer.md R130); that it runs from State's host list is the model's own choice (notes/assumptions/3.md). -/
def Obligations.SnapshotAnswersTheBufferInRowMajorOrder : Prop :=
  ∀ (s : State) (rest : List HostAction), s.mode = .idle → s.host = holdAll snapshotCommands ++ rest →
    responses 512 s = (List.range 512).map (fun n => zext32 (s.fb.read (16 * (n % 32) + n / 32))) ∧
    stateAfter 512 s = { s with host := rest, writes := [], rsp := (stateAfter 512 s).rsp }

/-- The block against its reference: any sequence of commands after reset, none of them out of range, runs in its count of steps to
a good end, with every cell at its last write, DWELL at its last WRDWELL, and the responses in command order
(20_memory.md R72, R73; 43_config.md R194; 30_encoding.md R84; 60_exceptions.md R221); the program stands in State's host list, the model's own (notes/assumptions/3.md, 4.md), and that the
host has no more to present is read as that list being empty, the model's own choice (notes/assumptions/18.md). -/
def Obligations.ProgramsMeetTheReference : Prop :=
  ∀ (cs : List Instr) (s t : State), (∀ i ∈ cs, inGrid i = true) →
    s = { State.reset with host := holdAll cs } → t = stateAfter (programSteps [] cs) s →
    t.endedWell ∧ (∀ x y, t.cell x y = lastWrite x y cs.reverse) ∧ t.dwell = lastDwell cs.reverse ∧
    responses (programSteps [] cs) s = programResponses [] cs

/-- A program with an out-of-range FILLRECT ends badly there: the commands before it have their full effect, and from then on the
rest of the program is never accepted (60_exceptions.md R204, R208); the program stands in State's host list, the model's own
(notes/assumptions/3.md, 4.md). -/
def Obligations.FaultsArePreciseInAProgram : Prop :=
  ∀ (cs rest : List Instr) (i : Instr) (s t : State) (n : Nat), (∀ j ∈ cs, inGrid j = true) → inGrid i = false →
    s = { State.reset with host := holdAll (cs ++ i :: rest) } → t = stateAfter (programSteps [] cs + 1 + n) s →
    t.endedBadly ∧ t.cause = 2 ∧ t.out.oe = true ∧ t.host = holdAll rest ∧
    (∀ x y, t.cell x y = lastWrite x y cs.reverse) ∧ t.dwell = lastDwell cs.reverse
end

