-- ==== Sys2Proof/Laws/Codec.lean ====
section
/-! SUPPORT. The codec ROM of 41_color_codec.md R140 holds what the pseudocode of the same rule computes. -/

namespace Sys2Proof.Machine

theorem codecRom_entries : ∀ k : Color, codecRom[k.toNat]'k.isLt = codecBits k := by decide

/-- With the ROM's contents a lookup gives the three bits of the code. -/
theorem State.codec_of_rom {s : State} (h : s.lut = codecRom) (k : Color) : s.codec k = codecBits k := by
  simp only [State.codec, h]
  exact codecRom_entries k

end Sys2Proof.Machine
end

