-- ==== Sys2Proof/Laws/Decode.lean ====
section
/-! SUPPORT. What the mask test of each row of the opcode map says of a word's fields, and the decoder by opcode: a word decodes to
a command exactly when its opcode is that command's and its reserved bits are 0 (30_encoding.md R88 to R96). -/

namespace Sys2Proof

theorem forall_lt_succ_iff {n : Nat} {p : Nat → Prop} : (∀ i, i < n + 1 → p i) ↔ (∀ i, i < n → p i) ∧ p n := by
  constructor
  · exact fun h => ⟨fun i hi => h i (by omega), h n (by omega)⟩
  · rintro ⟨h, hn⟩ i hi
    rcases Nat.lt_succ_iff_lt_or_eq.1 hi with h' | rfl
    · exact h i h'
    · exact hn

/-- Bit vectors are equal when their bits are. -/
theorem bitVec_eq_iff {n : Nat} {x y : BitVec n} : x = y ↔ ∀ i, i < n → x.getLsbD i = y.getLsbD i :=
  ⟨fun h _ _ => h ▸ rfl, fun h => BitVec.eq_of_getLsbD_eq h⟩

section
variable {w : Word}

theorem mask_setpix : w &&& 0xFF803FF8#32 = 0x10000000#32 ↔
    fieldOpcode w = 1 ∧ w.extractLsb' 23 5 = 0 ∧ w.extractLsb' 3 11 = 0 := by
  simp only [fieldOpcode, bitVec_eq_iff, forall_lt_succ_iff, BitVec.getLsbD_and, BitVec.getLsbD_extractLsb']
  simp
  tauto

theorem mask_fillrect : w &&& 0xFF800000#32 = 0x20000000#32 ↔ fieldOpcode w = 2 ∧ w.extractLsb' 23 5 = 0 := by
  simp only [fieldOpcode, bitVec_eq_iff, forall_lt_succ_iff, BitVec.getLsbD_and, BitVec.getLsbD_extractLsb']
  simp
  tauto

theorem mask_clear : w &&& 0xFFFFFFFF#32 = 0x30000000#32 ↔ fieldOpcode w = 3 ∧ w.extractLsb' 0 28 = 0 := by
  simp only [fieldOpcode, bitVec_eq_iff, forall_lt_succ_iff, BitVec.getLsbD_and, BitVec.getLsbD_extractLsb']
  simp
  tauto

theorem mask_rdpix : w &&& 0xFF803FFF#32 = 0x40000000#32 ↔
    fieldOpcode w = 4 ∧ w.extractLsb' 23 5 = 0 ∧ w.extractLsb' 0 14 = 0 := by
  simp only [fieldOpcode, bitVec_eq_iff, forall_lt_succ_iff, BitVec.getLsbD_and, BitVec.getLsbD_extractLsb']
  simp
  tauto

theorem mask_refresh : w &&& 0xFFFFFFFF#32 = 0x50000000#32 ↔ fieldOpcode w = 5 ∧ w.extractLsb' 0 28 = 0 := by
  simp only [fieldOpcode, bitVec_eq_iff, forall_lt_succ_iff, BitVec.getLsbD_and, BitVec.getLsbD_extractLsb']
  simp
  tauto

theorem mask_wrdwell : w &&& 0xFFFF0000#32 = 0x60000000#32 ↔ fieldOpcode w = 6 ∧ w.extractLsb' 16 12 = 0 := by
  simp only [fieldOpcode, bitVec_eq_iff, forall_lt_succ_iff, BitVec.getLsbD_and, BitVec.getLsbD_extractLsb']
  simp
  tauto

theorem mask_rddwell : w &&& 0xFFFFFFFF#32 = 0x70000000#32 ↔ fieldOpcode w = 7 ∧ w.extractLsb' 0 28 = 0 := by
  simp only [fieldOpcode, bitVec_eq_iff, forall_lt_succ_iff, BitVec.getLsbD_and, BitVec.getLsbD_extractLsb']
  simp
  tauto

/-- The decoder as a chain of tests on the opcode and the reserved bits. -/
theorem decode_eq (w : Word) : decode w =
    if fieldOpcode w = 1 ∧ w.extractLsb' 23 5 = 0 ∧ w.extractLsb' 3 11 = 0 then
      .ok (.setpix (fieldX w) (fieldY w) (fieldK w))
    else if fieldOpcode w = 2 ∧ w.extractLsb' 23 5 = 0 then
      .ok (.fillrect (fieldX w) (fieldY w) (fieldX2 w) (fieldY2 w) (fieldK w))
    else if fieldOpcode w = 3 ∧ w.extractLsb' 0 28 = 0 then .ok .clear
    else if fieldOpcode w = 4 ∧ w.extractLsb' 23 5 = 0 ∧ w.extractLsb' 0 14 = 0 then
      .ok (.rdpix (fieldX w) (fieldY w))
    else if fieldOpcode w = 5 ∧ w.extractLsb' 0 28 = 0 then .ok .refresh
    else if fieldOpcode w = 6 ∧ w.extractLsb' 16 12 = 0 then .ok (.wrdwell (fieldImm16 w))
    else if fieldOpcode w = 7 ∧ w.extractLsb' 0 28 = 0 then .ok .rddwell
    else .error (if opcodeDefined (fieldOpcode w) then .reservedBits else .reservedOpcode) := by
  simp only [← mask_setpix, ← mask_fillrect, ← mask_clear, ← mask_rdpix, ← mask_refresh, ← mask_wrdwell,
    ← mask_rddwell]
  unfold decode opcodeMap
  simp only [List.find?, beq_eq_decide, BitVec.ofNat_eq_ofNat]
  by_cases h1 : w &&& 0xFF803FF8#32 = 0x10000000#32
  · simp only [h1, decide_true, if_true]
  simp only [h1, decide_false, if_false]
  by_cases h2 : w &&& 0xFF800000#32 = 0x20000000#32
  · simp only [h2, decide_true, if_true]
  simp only [h2, decide_false, if_false]
  by_cases h3 : w &&& 0xFFFFFFFF#32 = 0x30000000#32
  · simp only [h3, decide_true, if_true]
  simp only [h3, decide_false, if_false]
  by_cases h4 : w &&& 0xFF803FFF#32 = 0x40000000#32
  · simp only [h4, decide_true, if_true]
  simp only [h4, decide_false, if_false]
  by_cases h5 : w &&& 0xFFFFFFFF#32 = 0x50000000#32
  · simp only [h5, decide_true, if_true]
  simp only [h5, decide_false, if_false]
  by_cases h6 : w &&& 0xFFFF0000#32 = 0x60000000#32
  · simp only [h6, decide_true, if_true]
  simp only [h6, decide_false, if_false]
  by_cases h7 : w &&& 0xFFFFFFFF#32 = 0x70000000#32
  · simp only [h7, decide_true, if_true]
  simp only [h7, decide_false, if_false]

/-- The opcodes that some row of the map has (30_encoding.md R93, R95). -/
theorem opcodeDefined_iff : ∀ op : BitVec 4, opcodeDefined op = true ↔ ¬(op = 0 ∨ 8 ≤ op.toNat) := by decide

end

end Sys2Proof
end

