-- ==== Sys2Proof/Laws/Memory.lean ====
section
/-! SUPPORT. The laws of the frame buffer memory: read after write, what a fill leaves, and that every operation keeps the
canonical form, in which equal contents are equal lists. -/

namespace Sys2Proof.Machine

@[simp] theorem Memory.read_nil (a : Nat) : Memory.read [] a = Memory.unlisted := rfl

@[simp] theorem Memory.wf_nil : Memory.wf [] = true := rfl

theorem Memory.wfFrom_cons {lo a : Nat} {v : Color} {rest : Memory} :
    Memory.wfFrom lo ((a, v) :: rest) = true ↔
      lo ≤ a ∧ a < Config.cells ∧ v ≠ Memory.unlisted ∧ Memory.wfFrom (a + 1) rest = true := by
  simp [Memory.wfFrom, and_assoc]

theorem Memory.wfFrom_of_le {lo lo' : Nat} (h : lo' ≤ lo) :
    ∀ {m : Memory}, Memory.wfFrom lo m = true → Memory.wfFrom lo' m = true
  | [], _ => rfl
  | (a, v) :: rest, hm => by
    rw [Memory.wfFrom_cons] at hm ⊢
    exact ⟨h.trans hm.1, hm.2⟩

/-- Below its first index a memory lists nothing. -/
theorem Memory.read_of_lt {lo a : Nat} (h : a < lo) :
    ∀ {m : Memory}, Memory.wfFrom lo m = true → m.read a = Memory.unlisted
  | [], _ => rfl
  | (b, v) :: rest, hm => by
    rw [Memory.wfFrom_cons] at hm
    have hne : a ≠ b := by omega
    simp only [Memory.read, if_neg hne]
    exact Memory.read_of_lt (lo := b + 1) (by omega) hm.2.2.2

/-- A cell beyond the grid reads as unlisted. -/
theorem Memory.read_beyond {a : Nat} (h : Config.cells ≤ a) :
    ∀ {lo : Nat} {m : Memory}, Memory.wfFrom lo m = true → m.read a = Memory.unlisted
  | _, [], _ => rfl
  | _, (b, v) :: rest, hm => by
    rw [Memory.wfFrom_cons] at hm
    have hne : a ≠ b := by omega
    simp only [Memory.read, if_neg hne]
    exact Memory.read_beyond h hm.2.2.2

theorem Memory.read_write_self_from {a : Nat} {v : Color} :
    ∀ {lo : Nat} {m : Memory}, Memory.wfFrom lo m = true → (m.write a v).read a = v
  | _, [], _ => by
    by_cases hv : v = Memory.unlisted <;> simp [Memory.write, Memory.read, hv]
  | _, (b, u) :: rest, hm => by
    rw [Memory.wfFrom_cons] at hm
    by_cases hv : v = Memory.unlisted
    · rcases Nat.lt_trichotomy a b with h | h | h
      · simp [Memory.write, Memory.read, h, hv, h.ne, Memory.read_of_lt (Nat.lt_succ_of_lt h) hm.2.2.2]
      · simp [Memory.write, h, hv, Memory.read_of_lt (Nat.lt_succ_self b) hm.2.2.2]
      · simp [Memory.write, Memory.read, h.not_gt, h.ne', Memory.read_write_self_from hm.2.2.2]
    · rcases Nat.lt_trichotomy a b with h | h | h
      · simp [Memory.write, Memory.read, h, hv]
      · simp [Memory.write, Memory.read, h, hv]
      · simp [Memory.write, Memory.read, h.not_gt, h.ne', Memory.read_write_self_from hm.2.2.2]

/-- A read after a write to the same cell gives the value written. -/
theorem Memory.read_write_self {m : Memory} (hm : m.wf = true) (a : Nat) (v : Color) : (m.write a v).read a = v :=
  Memory.read_write_self_from hm

/-- A write leaves every other cell alone. -/
theorem Memory.read_write_other {a c : Nat} {v : Color} (h : c ≠ a) :
    ∀ m : Memory, (m.write a v).read c = m.read c
  | [] => by by_cases hv : v = Memory.unlisted <;> simp [Memory.write, Memory.read, hv, h]
  | (b, u) :: rest => by
    rcases Nat.lt_trichotomy a b with hab | hab | hab
    · by_cases hv : v = Memory.unlisted <;> simp [Memory.write, Memory.read, hab, hv, h]
    · subst hab
      by_cases hv : v = Memory.unlisted <;> simp [Memory.write, Memory.read, hv, h]
    · simp only [Memory.write, Memory.read, hab.not_gt, hab.ne', if_false]
      rw [Memory.read_write_other h rest]

theorem Memory.wfFrom_write {a : Nat} {v : Color} (ha : a < Config.cells) :
    ∀ {lo : Nat} {m : Memory}, lo ≤ a → Memory.wfFrom lo m = true → Memory.wfFrom lo (m.write a v) = true
  | lo, [], hlo, _ => by
    by_cases hv : v = Memory.unlisted
    · simp [Memory.write, hv, Memory.wfFrom]
    · simp [Memory.write, hv, Memory.wfFrom, ha, hlo]
  | lo, (b, u) :: rest, hlo, hm => by
    have hm' := Memory.wfFrom_cons.1 hm
    rcases Nat.lt_trichotomy a b with hab | hab | hab
    · by_cases hv : v = Memory.unlisted
      · simpa [Memory.write, hab, hv] using hm
      · simp only [Memory.write, hab, if_true, hv, if_false]
        exact Memory.wfFrom_cons.2 ⟨hlo, ha, hv, Memory.wfFrom_cons.2 ⟨hab, hm'.2⟩⟩
    · subst hab
      by_cases hv : v = Memory.unlisted
      · simpa [Memory.write, hv] using Memory.wfFrom_of_le (Nat.le_succ_of_le hm'.1) hm'.2.2.2
      · simp only [Memory.write, lt_irrefl, if_true, hv, if_false]
        exact Memory.wfFrom_cons.2 ⟨hlo, ha, hv, hm'.2.2.2⟩
    · simp only [Memory.write, hab.not_gt, hab.ne', if_false]
      exact Memory.wfFrom_cons.2 ⟨hm'.1, hm'.2.1, hm'.2.2.1, Memory.wfFrom_write ha hab hm'.2.2.2⟩

/-- A write into the grid keeps the canonical form. -/
theorem Memory.wf_write {m : Memory} {a : Nat} (hm : m.wf = true) (ha : a < Config.cells) (v : Color) :
    (m.write a v).wf = true :=
  Memory.wfFrom_write ha (Nat.zero_le a) hm

/-- A fill of cells of the grid keeps the canonical form. -/
theorem Memory.wf_fill {m : Memory} (hm : m.wf = true) (k : Color) :
    ∀ {cells : List Nat}, (∀ a ∈ cells, a < Config.cells) → (m.fill cells k).wf = true
  | [], _ => hm
  | a :: _, h =>
    Memory.wf_write (Memory.wf_fill hm k fun b hb => h b (List.mem_cons_of_mem a hb)) (h a List.mem_cons_self) k

/-- After a fill the listed cells hold the code and every other cell what it held before. -/
theorem Memory.read_fill {m : Memory} (hm : m.wf = true) (k : Color) (c : Nat) :
    ∀ {cells : List Nat}, (∀ a ∈ cells, a < Config.cells) →
      (m.fill cells k).read c = if c ∈ cells then k else m.read c
  | [], _ => by simp [Memory.fill]
  | a :: rest, h => by
    have hrest : ∀ b ∈ rest, b < Config.cells := fun b hb => h b (List.mem_cons_of_mem a hb)
    change ((m.fill rest k).write a k).read c = _
    by_cases hca : c = a
    · subst hca
      simp [Memory.read_write_self (Memory.wf_fill hm k hrest)]
    · rw [Memory.read_write_other hca, Memory.read_fill hm k c hrest]
      simp [hca]

theorem Memory.ext_from : ∀ {lo : Nat} {m m' : Memory}, Memory.wfFrom lo m = true → Memory.wfFrom lo m' = true →
    (∀ a, m.read a = m'.read a) → m = m'
  | _, [], [], _, _, _ => rfl
  | _, [], (b, u) :: rest, _, hm', h => by
    have := h b
    simp only [Memory.read, if_true] at this
    exact absurd this.symm (Memory.wfFrom_cons.1 hm').2.2.1
  | _, (a, v) :: rest, [], hm, _, h => by
    have := h a
    simp only [Memory.read, if_true] at this
    exact absurd this (Memory.wfFrom_cons.1 hm).2.2.1
  | _, (a, v) :: rest, (b, u) :: rest', hm, hm', h => by
    obtain ⟨-, -, hv, hr⟩ := Memory.wfFrom_cons.1 hm
    obtain ⟨-, -, hu, hr'⟩ := Memory.wfFrom_cons.1 hm'
    have hab : a = b := by
      rcases Nat.lt_trichotomy a b with hlt | heq | hgt
      · have := h a
        rw [Memory.read_of_lt hlt (Memory.wfFrom_cons.2 ⟨le_refl b, (Memory.wfFrom_cons.1 hm').2.1, hu, hr'⟩)] at this
        simp only [Memory.read, if_true] at this
        exact absurd this hv
      · exact heq
      · have := h b
        rw [Memory.read_of_lt hgt (Memory.wfFrom_cons.2 ⟨le_refl a, (Memory.wfFrom_cons.1 hm).2.1, hv, hr⟩)] at this
        simp only [Memory.read, if_true] at this
        exact absurd this.symm hu
    subst hab
    have hvu : v = u := by simpa [Memory.read] using h a
    subst hvu
    have htail : rest = rest' := by
      refine Memory.ext_from hr hr' fun c => ?_
      by_cases hca : c = a
      · subst hca
        rw [Memory.read_of_lt (Nat.lt_succ_self c) hr, Memory.read_of_lt (Nat.lt_succ_self c) hr']
      · simpa [Memory.read, hca] using h c
    rw [htail]

/-- In canonical form equal contents are equal lists. -/
theorem Memory.ext_read {m m' : Memory} (hm : m.wf = true) (hm' : m'.wf = true) (h : ∀ a, m.read a = m'.read a) :
    m = m' :=
  Memory.ext_from hm hm' h

end Sys2Proof.Machine
end

