-- ==== Sys2Proof/Laws/Operands.lean ====
section
/-! SUPPORT. The linear cell index is `16*x + y` and names each cell once; which cells a rectangle holds; the two halves. -/

namespace Sys2Proof.Machine

theorem cellIndex_eq (x : BitVec 5) (y : BitVec 4) : cellIndex x y = 16 * x.toNat + y.toNat := by
  rw [cellIndex, BitVec.toNat_append, ← Nat.shiftLeft_add_eq_or_of_lt y.isLt, Nat.shiftLeft_eq]
  omega

theorem cellIndex_gridIndex (x : BitVec 5) (y : BitVec 4) : cellIndex x y = gridIndex x.toNat y.toNat :=
  cellIndex_eq x y

theorem cellIndex_lt (x : BitVec 5) (y : BitVec 4) : cellIndex x y < Config.cells := (x ++ y).isLt

theorem gridIndex_eq (x y : Nat) : gridIndex x y = 16 * x + y := rfl

theorem cellIndex_inj {x x' : BitVec 5} {y y' : BitVec 4} :
    cellIndex x y = cellIndex x' y' ↔ x = x' ∧ y = y' := by
  constructor
  · intro h
    rw [cellIndex_eq, cellIndex_eq] at h
    have hy := y.isLt
    have hy' := y'.isLt
    exact ⟨BitVec.eq_of_toNat_eq (by omega), BitVec.eq_of_toNat_eq (by omega)⟩
  · rintro ⟨rfl, rfl⟩
    rfl

/-- Every index of the grid names a cell. -/
theorem exists_cellIndex {a : Nat} (h : a < Config.cells) : ∃ x y, cellIndex x y = a := by
  have h' : a < 512 := h
  refine ⟨BitVec.ofNat 5 (a / 16), BitVec.ofNat 4 (a % 16), ?_⟩
  rw [cellIndex_eq, BitVec.toNat_ofNat, BitVec.toNat_ofNat]
  omega

theorem mem_rectCells {x1 y1 x2 y2 a : Nat} :
    a ∈ rectCells x1 y1 x2 y2 ↔ ∃ x y, x1 ≤ x ∧ x < x2 ∧ y1 ≤ y ∧ y < y2 ∧ a = gridIndex x y := by
  simp only [rectCells, List.mem_flatMap, List.mem_map, List.mem_range'_1]
  constructor
  · rintro ⟨x, hx, y, hy, rfl⟩
    exact ⟨x, y, by omega, by omega, by omega, by omega, rfl⟩
  · rintro ⟨x, y, h1, h2, h3, h4, rfl⟩
    exact ⟨x, by omega, y, by omega, rfl⟩

/-- A rectangle inside the grid holds cell `(x, y)` exactly when its bounds do (40_framebuffer.md R116). -/
theorem cellIndex_mem_rectCells {x1 y1 x2 y2 : Nat} (hy2 : y2 ≤ 16) (x : BitVec 5) (y : BitVec 4) :
    cellIndex x y ∈ rectCells x1 y1 x2 y2 ↔ x1 ≤ x.toNat ∧ x.toNat < x2 ∧ y1 ≤ y.toNat ∧ y.toNat < y2 := by
  rw [mem_rectCells, cellIndex_eq]
  have hy := y.isLt
  constructor
  · rintro ⟨x', y', h1, h2, h3, h4, h5⟩
    rw [gridIndex_eq] at h5
    omega
  · rintro ⟨h1, h2, h3, h4⟩
    exact ⟨x.toNat, y.toNat, h1, h2, h3, h4, rfl⟩

theorem rectCells_lt {x1 y1 x2 y2 : Nat} (hx2 : x2 ≤ 32) (hy2 : y2 ≤ 16) :
    ∀ a ∈ rectCells x1 y1 x2 y2, a < Config.cells := by
  intro a ha
  obtain ⟨x, y, -, h2, -, h4, rfl⟩ := mem_rectCells.1 ha
  rw [gridIndex_eq]
  change _ < 512
  omega

theorem allCells_lt : ∀ a ∈ allCells, a < Config.cells :=
  rectCells_lt (x2 := 32) (y2 := 16) le_rfl le_rfl

theorem cellIndex_mem_allCells (x : BitVec 5) (y : BitVec 4) : cellIndex x y ∈ allCells := by
  have hx := x.isLt
  have hy := y.isLt
  exact (cellIndex_mem_rectCells (x2 := 32) (y2 := 16) le_rfl x y).2 (by omega)

theorem rectEmpty_iff {x1 : BitVec 5} {y1 : BitVec 4} {x2 : BitVec 6} {y2 : BitVec 5} :
    rectEmpty x1 y1 x2 y2 = true ↔ x2.toNat ≤ x1.toNat ∨ y2.toNat ≤ y1.toNat := by
  simp [rectEmpty]

theorem rectBeyond_iff {x2 : BitVec 6} {y2 : BitVec 5} :
    rectBeyond x2 y2 = true ↔ 32 < x2.toNat ∨ 16 < y2.toNat := by
  simp [rectBeyond, Config.cols, Config.rows]

theorem rectOutOfRange_iff {x1 : BitVec 5} {y1 : BitVec 4} {x2 : BitVec 6} {y2 : BitVec 5} :
    rectOutOfRange x1 y1 x2 y2 = true ↔
      (x1.toNat < x2.toNat ∧ y1.toNat < y2.toNat) ∧ (32 < x2.toNat ∨ 16 < y2.toNat) := by
  simp [rectOutOfRange, rectEmpty, rectBeyond_iff]

theorem upperRow_toNat (r : BitVec 3) : (upperRow r).toNat = r.toNat := by
  have h := r.isLt
  simp only [upperRow, BitVec.toNat_setWidth]
  omega

theorem lowerRow_toNat : ∀ r : BitVec 3, (lowerRow r).toNat = r.toNat + 8 := by decide

end Sys2Proof.Machine
end

