-- ==== Sys2Proof/Laws/State.lean ====
section
/-! SUPPORT. What each named operation leaves in each field of the state, true by unfolding the operation once, and the levels of
the lines after a line write. -/

namespace Sys2Proof.Machine

section
variable (s : State) (x : BitVec 5) (y : BitVec 4) (k : Color)

@[simp] theorem State.writeCell_fb : (s.writeCell x y k).fb = s.fb.write (cellIndex x y) k := rfl
@[simp] theorem State.writeCell_lut : (s.writeCell x y k).lut = s.lut := rfl
@[simp] theorem State.writeCell_dwell : (s.writeCell x y k).dwell = s.dwell := rfl
@[simp] theorem State.writeCell_mode : (s.writeCell x y k).mode = s.mode := rfl
@[simp] theorem State.writeCell_cause : (s.writeCell x y k).cause = s.cause := rfl
@[simp] theorem State.writeCell_phase : (s.writeCell x y k).phase = s.phase := rfl
@[simp] theorem State.writeCell_row : (s.writeCell x y k).row = s.row := rfl
@[simp] theorem State.writeCell_col : (s.writeCell x y k).col = s.col := rfl
@[simp] theorem State.writeCell_wait : (s.writeCell x y k).wait = s.wait := rfl
@[simp] theorem State.writeCell_out : (s.writeCell x y k).out = s.out := rfl
@[simp] theorem State.writeCell_host : (s.writeCell x y k).host = s.host := rfl
@[simp] theorem State.writeCell_writes : (s.writeCell x y k).writes = s.writes := rfl
@[simp] theorem State.writeCell_rsp : (s.writeCell x y k).rsp = s.rsp := rfl

end

section
variable (s : State) (cells : List Nat) (k : Color)

@[simp] theorem State.fillCells_fb : (s.fillCells cells k).fb = s.fb.fill cells k := rfl
@[simp] theorem State.fillCells_lut : (s.fillCells cells k).lut = s.lut := rfl
@[simp] theorem State.fillCells_dwell : (s.fillCells cells k).dwell = s.dwell := rfl
@[simp] theorem State.fillCells_mode : (s.fillCells cells k).mode = s.mode := rfl
@[simp] theorem State.fillCells_cause : (s.fillCells cells k).cause = s.cause := rfl
@[simp] theorem State.fillCells_phase : (s.fillCells cells k).phase = s.phase := rfl
@[simp] theorem State.fillCells_row : (s.fillCells cells k).row = s.row := rfl
@[simp] theorem State.fillCells_col : (s.fillCells cells k).col = s.col := rfl
@[simp] theorem State.fillCells_wait : (s.fillCells cells k).wait = s.wait := rfl
@[simp] theorem State.fillCells_out : (s.fillCells cells k).out = s.out := rfl
@[simp] theorem State.fillCells_host : (s.fillCells cells k).host = s.host := rfl
@[simp] theorem State.fillCells_writes : (s.fillCells cells k).writes = s.writes := rfl
@[simp] theorem State.fillCells_rsp : (s.fillCells cells k).rsp = s.rsp := rfl

end

section
variable (s : State) (n : BitVec 16)

@[simp] theorem State.writeDwell_fb : (s.writeDwell n).fb = s.fb := rfl
@[simp] theorem State.writeDwell_lut : (s.writeDwell n).lut = s.lut := rfl
@[simp] theorem State.writeDwell_dwell : (s.writeDwell n).dwell = n := rfl
@[simp] theorem State.writeDwell_mode : (s.writeDwell n).mode = s.mode := rfl
@[simp] theorem State.writeDwell_cause : (s.writeDwell n).cause = s.cause := rfl
@[simp] theorem State.writeDwell_phase : (s.writeDwell n).phase = s.phase := rfl
@[simp] theorem State.writeDwell_row : (s.writeDwell n).row = s.row := rfl
@[simp] theorem State.writeDwell_col : (s.writeDwell n).col = s.col := rfl
@[simp] theorem State.writeDwell_wait : (s.writeDwell n).wait = s.wait := rfl
@[simp] theorem State.writeDwell_out : (s.writeDwell n).out = s.out := rfl
@[simp] theorem State.writeDwell_host : (s.writeDwell n).host = s.host := rfl
@[simp] theorem State.writeDwell_writes : (s.writeDwell n).writes = s.writes := rfl
@[simp] theorem State.writeDwell_rsp : (s.writeDwell n).rsp = s.rsp := rfl

end

section
variable (s : State) (l : Line) (v : Bool)

@[simp] theorem State.emit_fb : (s.emit l v).fb = s.fb := rfl
@[simp] theorem State.emit_lut : (s.emit l v).lut = s.lut := rfl
@[simp] theorem State.emit_dwell : (s.emit l v).dwell = s.dwell := rfl
@[simp] theorem State.emit_mode : (s.emit l v).mode = s.mode := rfl
@[simp] theorem State.emit_cause : (s.emit l v).cause = s.cause := rfl
@[simp] theorem State.emit_phase : (s.emit l v).phase = s.phase := rfl
@[simp] theorem State.emit_row : (s.emit l v).row = s.row := rfl
@[simp] theorem State.emit_col : (s.emit l v).col = s.col := rfl
@[simp] theorem State.emit_wait : (s.emit l v).wait = s.wait := rfl
@[simp] theorem State.emit_out : (s.emit l v).out = s.out.set l v := rfl
@[simp] theorem State.emit_host : (s.emit l v).host = s.host := rfl
@[simp] theorem State.emit_writes : (s.emit l v).writes = s.writes ++ [(l, v)] := rfl
@[simp] theorem State.emit_rsp : (s.emit l v).rsp = s.rsp := rfl

end

section
variable (s : State) (v : Word)

@[simp] theorem State.respond_fb : (s.respond v).fb = s.fb := rfl
@[simp] theorem State.respond_lut : (s.respond v).lut = s.lut := rfl
@[simp] theorem State.respond_dwell : (s.respond v).dwell = s.dwell := rfl
@[simp] theorem State.respond_mode : (s.respond v).mode = s.mode := rfl
@[simp] theorem State.respond_cause : (s.respond v).cause = s.cause := rfl
@[simp] theorem State.respond_phase : (s.respond v).phase = s.phase := rfl
@[simp] theorem State.respond_row : (s.respond v).row = s.row := rfl
@[simp] theorem State.respond_col : (s.respond v).col = s.col := rfl
@[simp] theorem State.respond_wait : (s.respond v).wait = s.wait := rfl
@[simp] theorem State.respond_out : (s.respond v).out = s.out := rfl
@[simp] theorem State.respond_host : (s.respond v).host = s.host := rfl
@[simp] theorem State.respond_writes : (s.respond v).writes = s.writes := rfl
@[simp] theorem State.respond_rsp : (s.respond v).rsp = some v := rfl

end

section
variable (s : State) (c : Cause)

@[simp] theorem State.raiseFault_fb : (s.raiseFault c).fb = s.fb := rfl
@[simp] theorem State.raiseFault_lut : (s.raiseFault c).lut = s.lut := rfl
@[simp] theorem State.raiseFault_dwell : (s.raiseFault c).dwell = s.dwell := rfl
@[simp] theorem State.raiseFault_mode : (s.raiseFault c).mode = .fault := rfl
@[simp] theorem State.raiseFault_cause : (s.raiseFault c).cause = c.code := rfl
@[simp] theorem State.raiseFault_phase : (s.raiseFault c).phase = s.phase := rfl
@[simp] theorem State.raiseFault_row : (s.raiseFault c).row = s.row := rfl
@[simp] theorem State.raiseFault_col : (s.raiseFault c).col = s.col := rfl
@[simp] theorem State.raiseFault_wait : (s.raiseFault c).wait = s.wait := rfl
@[simp] theorem State.raiseFault_out : (s.raiseFault c).out = s.out.set .oe true := rfl
@[simp] theorem State.raiseFault_host : (s.raiseFault c).host = s.host := rfl
@[simp] theorem State.raiseFault_writes : (s.raiseFault c).writes = s.writes ++ [(.oe, true)] := rfl
@[simp] theorem State.raiseFault_rsp : (s.raiseFault c).rsp = s.rsp := rfl

end

section
variable (s : State)

@[simp] theorem State.resetBlock_fb : (s.resetBlock).fb = [] := rfl
@[simp] theorem State.resetBlock_lut : (s.resetBlock).lut = s.lut := rfl
@[simp] theorem State.resetBlock_dwell : (s.resetBlock).dwell = Config.dwellReset := rfl
@[simp] theorem State.resetBlock_mode : (s.resetBlock).mode = .idle := rfl
@[simp] theorem State.resetBlock_cause : (s.resetBlock).cause = 0 := rfl
@[simp] theorem State.resetBlock_phase : (s.resetBlock).phase = .blankOn := rfl
@[simp] theorem State.resetBlock_row : (s.resetBlock).row = 0 := rfl
@[simp] theorem State.resetBlock_col : (s.resetBlock).col = 0 := rfl
@[simp] theorem State.resetBlock_wait : (s.resetBlock).wait = 0 := rfl
@[simp] theorem State.resetBlock_out : (s.resetBlock).out = Lines.reset := rfl
@[simp] theorem State.resetBlock_host : (s.resetBlock).host = s.host := rfl
@[simp] theorem State.resetBlock_writes : (s.resetBlock).writes = s.writes := rfl
@[simp] theorem State.resetBlock_rsp : (s.resetBlock).rsp = s.rsp := rfl

end

section
variable (s : State)

@[simp] theorem State.startScan_fb : (s.startScan).fb = s.fb := rfl
@[simp] theorem State.startScan_lut : (s.startScan).lut = s.lut := rfl
@[simp] theorem State.startScan_dwell : (s.startScan).dwell = s.dwell := rfl
@[simp] theorem State.startScan_mode : (s.startScan).mode = .scan := rfl
@[simp] theorem State.startScan_cause : (s.startScan).cause = s.cause := rfl
@[simp] theorem State.startScan_phase : (s.startScan).phase = .blankOn := rfl
@[simp] theorem State.startScan_row : (s.startScan).row = 0 := rfl
@[simp] theorem State.startScan_col : (s.startScan).col = 0 := rfl
@[simp] theorem State.startScan_wait : (s.startScan).wait = 0 := rfl
@[simp] theorem State.startScan_out : (s.startScan).out = s.out := rfl
@[simp] theorem State.startScan_host : (s.startScan).host = s.host := rfl
@[simp] theorem State.startScan_writes : (s.startScan).writes = s.writes := rfl
@[simp] theorem State.startScan_rsp : (s.startScan).rsp = s.rsp := rfl

end

section
variable (s : State)

@[simp] theorem State.beginStep_fb : (s.beginStep).fb = s.fb := rfl
@[simp] theorem State.beginStep_lut : (s.beginStep).lut = s.lut := rfl
@[simp] theorem State.beginStep_dwell : (s.beginStep).dwell = s.dwell := rfl
@[simp] theorem State.beginStep_mode : (s.beginStep).mode = s.mode := rfl
@[simp] theorem State.beginStep_cause : (s.beginStep).cause = s.cause := rfl
@[simp] theorem State.beginStep_phase : (s.beginStep).phase = s.phase := rfl
@[simp] theorem State.beginStep_row : (s.beginStep).row = s.row := rfl
@[simp] theorem State.beginStep_col : (s.beginStep).col = s.col := rfl
@[simp] theorem State.beginStep_wait : (s.beginStep).wait = s.wait := rfl
@[simp] theorem State.beginStep_out : (s.beginStep).out = s.out := rfl
@[simp] theorem State.beginStep_host : (s.beginStep).host = s.hostAfter := rfl
@[simp] theorem State.beginStep_writes : (s.beginStep).writes = [] := rfl
@[simp] theorem State.beginStep_rsp : (s.beginStep).rsp = none := rfl

end

section
variable (s : State)

@[simp] theorem State.endOfRow_fb : s.endOfRow.fb = s.fb := by
  unfold State.endOfRow; split <;> rfl
@[simp] theorem State.endOfRow_lut : s.endOfRow.lut = s.lut := by
  unfold State.endOfRow; split <;> rfl
@[simp] theorem State.endOfRow_dwell : s.endOfRow.dwell = s.dwell := by
  unfold State.endOfRow; split <;> rfl
@[simp] theorem State.endOfRow_cause : s.endOfRow.cause = s.cause := by
  unfold State.endOfRow; split <;> rfl
@[simp] theorem State.endOfRow_out : s.endOfRow.out = s.out := by
  unfold State.endOfRow; split <;> rfl
@[simp] theorem State.endOfRow_host : s.endOfRow.host = s.host := by
  unfold State.endOfRow; split <;> rfl
@[simp] theorem State.endOfRow_writes : s.endOfRow.writes = s.writes := by
  unfold State.endOfRow; split <;> rfl
@[simp] theorem State.endOfRow_rsp : s.endOfRow.rsp = s.rsp := by
  unfold State.endOfRow; split <;> rfl
@[simp] theorem State.endOfRow_phase : s.endOfRow.phase = .blankOn := by
  unfold State.endOfRow; split <;> rfl

end

/-- The last row ends the refresh (42_scan_engine.md R165). -/
theorem State.endOfRow_last {s : State} (h : s.row = 7) :
    s.endOfRow = { s with mode := .idle, phase := .blankOn, row := 0, col := 0, wait := 0 } :=
  if_pos h

/-- Every other row is followed by the next (42_scan_engine.md R165). -/
theorem State.endOfRow_next {s : State} (h : s.row ≠ 7) :
    s.endOfRow = { s with row := s.row + 1, phase := .blankOn } :=
  if_neg h

/-- A line write drives its line and no other. -/
theorem Lines.level_set (o : Lines) (l l' : Line) (v : Bool) :
    (o.set l v).level l' = if l' = l then v else o.level l' := by
  cases l <;> cases l' <;> rfl

/-- Equal levels of every line are equal output registers. -/
theorem Lines.ext_level {o o' : Lines} (h : ∀ l, o.level l = o'.level l) : o = o' := by
  cases o
  cases o'
  simp only [Lines.mk.injEq]
  exact ⟨h .rUp, h .gUp, h .bUp, h .rLo, h .gLo, h .bLo, h .clk, h .lat, h .oe, h .a, h .b, h .c⟩

/-- The frame buffer read through an operation that leaves it alone. -/
theorem State.cell_congr {s t : State} (h : t.fb = s.fb) (x : BitVec 5) (y : BitVec 4) : t.cell x y = s.cell x y := by
  simp only [State.cell, h]

end Sys2Proof.Machine
end

