-- ==== Sys2Proof/Laws/Step.lean ====
section
/-! SUPPORT. What a meaning, a micro-step and a step can do, said once each, for the proofs that follow to cite. -/

namespace Sys2Proof.Machine

/-- Every meaning answers a next state. -/
theorem exec_total (i : Instr) (s : State) : ∃ t, exec i s = .next t := by
  cases i with
  | fillrect x1 y1 x2 y2 k =>
    simp only [exec, execFillrect]
    split
    · exact ⟨_, rfl⟩
    · split <;> exact ⟨_, rfl⟩
  | _ => exact ⟨_, rfl⟩

/-- Everything a FILLRECT can do (40_framebuffer.md R116). -/
theorem execFillrect_cases {x1 : BitVec 5} {y1 : BitVec 4} {x2 : BitVec 6} {y2 : BitVec 5} {k : Color} {s t : State}
    (h : execFillrect x1 y1 x2 y2 k s = .next t) :
    (rectEmpty x1 y1 x2 y2 = true ∧ t = s) ∨
    (rectEmpty x1 y1 x2 y2 = false ∧ rectBeyond x2 y2 = true ∧ t = s.raiseFault .range) ∨
    (rectEmpty x1 y1 x2 y2 = false ∧ rectBeyond x2 y2 = false ∧
      t = s.fillCells (rectCells x1.toNat y1.toNat x2.toNat y2.toNat) k) := by
  unfold execFillrect at h
  split at h
  · exact .inl ⟨‹_›, by injection h with h; exact h.symm⟩
  · split at h
    · exact .inr (.inl ⟨by simpa using ‹¬rectEmpty x1 y1 x2 y2 = true›, ‹_›, by injection h with h; exact h.symm⟩)
    · exact .inr (.inr ⟨by simpa using ‹¬rectEmpty x1 y1 x2 y2 = true›, by simpa using ‹¬rectBeyond x2 y2 = true›,
        by injection h with h; exact h.symm⟩)

/-- A command either writes cells only, or writes DWELL only, or gives a response only, or starts a refresh, or raises
RANGE. -/
theorem exec_cases {i : Instr} {s t : State} (h : exec i s = .next t) :
    (∃ fb, t = { s with fb := fb } ∧ (s.fb.wf = true → fb.wf = true) ∧
      ((∃ x y k, i = .setpix x y k) ∨ (∃ x1 y1 x2 y2 k, i = .fillrect x1 y1 x2 y2 k) ∨ i = .clear)) ∨
    (∃ n, i = .wrdwell n ∧ t = s.writeDwell n) ∨
    (∃ x y, i = .rdpix x y ∧ t = s.respond (zext32 (s.cell x y))) ∨
    (i = .rddwell ∧ t = s.respond (zext32 s.dwell)) ∨
    (i = .refresh ∧ t = s.startScan) ∨
    (∃ x1 y1 x2 y2 k, i = .fillrect x1 y1 x2 y2 k ∧ rectOutOfRange x1 y1 x2 y2 = true ∧ t = s.raiseFault .range) := by
  cases i with
  | setpix x y k =>
    obtain rfl : s.writeCell x y k = t := by simpa [exec, execSetpix] using h
    exact .inl ⟨_, rfl, fun hw => Memory.wf_write hw (cellIndex_lt x y) k, .inl ⟨x, y, k, rfl⟩⟩
  | fillrect x1 y1 x2 y2 k =>
    rcases execFillrect_cases h with ⟨-, rfl⟩ | ⟨he, hb, rfl⟩ | ⟨-, hb, rfl⟩
    · exact .inl ⟨t.fb, rfl, id, .inr (.inl ⟨x1, y1, x2, y2, k, rfl⟩)⟩
    · exact .inr (.inr (.inr (.inr (.inr ⟨x1, y1, x2, y2, k, rfl, by simp [rectOutOfRange, he, hb], rfl⟩))))
    · have hb' : ¬(32 < x2.toNat ∨ 16 < y2.toNat) := by
        rw [← rectBeyond_iff, hb]
        decide
      exact .inl ⟨_, rfl, fun hw => Memory.wf_fill hw k (rectCells_lt (by omega) (by omega)),
        .inr (.inl ⟨x1, y1, x2, y2, k, rfl⟩)⟩
  | clear =>
    obtain rfl : s.fillCells allCells 0 = t := by simpa [exec, execClear] using h
    exact .inl ⟨_, rfl, fun hw => Memory.wf_fill hw 0 allCells_lt, .inr (.inr rfl)⟩
  | rdpix x y =>
    exact .inr (.inr (.inl ⟨x, y, rfl, by simpa [exec, execRdpix] using h.symm⟩))
  | refresh => exact .inr (.inr (.inr (.inr (.inl ⟨rfl, by simpa [exec, execRefresh] using h.symm⟩))))
  | wrdwell n => exact .inr (.inl ⟨n, rfl, by simpa [exec, execWrdwell] using h.symm⟩)
  | rddwell => exact .inr (.inr (.inr (.inl ⟨rfl, by simpa [exec, execRddwell] using h.symm⟩)))

/-- Everything a step can do (00_scope.md R15): it is reset, runs an accepted command, raises ILLEGAL, idles, performs a scan
micro-step, or rests in FAULT. -/
theorem step_cases {s t : State} (h : step s = .next t) :
    (s.pins.rst = true ∧ t = s.beginStep.resetBlock) ∨
    (s.pins.rst = false ∧ s.mode = .idle ∧ s.pins.cmdValid = true ∧
      ∃ i, decode s.pins.cmdData = .ok i ∧ exec i s.beginStep = .next t) ∨
    (s.pins.rst = false ∧ s.mode = .idle ∧ s.pins.cmdValid = true ∧
      ∃ e, decode s.pins.cmdData = .error e ∧ t = s.beginStep.raiseFault .illegal) ∨
    (s.pins.rst = false ∧ s.mode = .idle ∧ s.pins.cmdValid = false ∧ t = s.beginStep) ∨
    (s.pins.rst = false ∧ s.mode = .scan ∧ t = microStep s.beginStep) ∨
    (s.pins.rst = false ∧ s.mode = .fault ∧ t = s.beginStep) := by
  unfold step cycle at h
  cases hr : s.pins.rst with
  | true =>
    rw [if_pos hr] at h
    exact .inl ⟨rfl, by injection h with h; exact h.symm⟩
  | false =>
    rw [if_neg (by simp [hr])] at h
    cases hm : s.mode with
    | idle =>
      simp only [hm, idleStep] at h
      cases hv : s.pins.cmdValid with
      | true =>
        simp only [hv, if_true, acceptWord] at h
        cases hd : decode s.pins.cmdData with
        | ok i =>
          rw [hd] at h
          exact .inr (.inl ⟨rfl, rfl, rfl, i, rfl, h⟩)
        | error e =>
          rw [hd] at h
          exact .inr (.inr (.inl ⟨rfl, rfl, rfl, e, rfl, by injection h with h; exact h.symm⟩))
      | false =>
        simp only [hv] at h
        exact .inr (.inr (.inr (.inl ⟨rfl, rfl, rfl, by injection h with h; exact h.symm⟩)))
    | scan =>
      simp only [hm] at h
      exact .inr (.inr (.inr (.inr (.inl ⟨rfl, rfl, by injection h with h; exact h.symm⟩))))
    | fault =>
      simp only [hm, faultStep] at h
      exact .inr (.inr (.inr (.inr (.inr ⟨rfl, rfl, by injection h with h; exact h.symm⟩))))

theorem State.accepts_iff {s : State} :
    s.accepts = true ↔ s.mode = .idle ∧ s.pins.rst = false ∧ s.pins.cmdValid = true := by
  simp only [State.accepts, State.cmdReady, Bool.and_eq_true, Bool.not_eq_true', decide_eq_true_eq]
  tauto

/-- A scan step without reset is the micro-step of its phase. -/
theorem step_scan {s : State} (hm : s.mode = .scan) (hr : s.pins.rst = false) :
    step s = .next (microStep s.beginStep) := by
  simp [step, cycle, hm, hr]

section
variable {s : State}

theorem microStep_blankOn (h : s.phase = .blankOn) : microStep s = microBlankOn s := by simp only [microStep, h]
theorem microStep_setAddr (h : s.phase = .setAddr) : microStep s = microSetAddr s := by simp only [microStep, h]
theorem microStep_colUp (h : s.phase = .colUp) : microStep s = microColUp s := by simp only [microStep, h]
theorem microStep_colLo (h : s.phase = .colLo) : microStep s = microColLo s := by simp only [microStep, h]
theorem microStep_clkHi (h : s.phase = .clkHi) : microStep s = microClkHi s := by simp only [microStep, h]
theorem microStep_clkLo (h : s.phase = .clkLo) : microStep s = microClkLo s := by simp only [microStep, h]
theorem microStep_latHi (h : s.phase = .latHi) : microStep s = microLatHi s := by simp only [microStep, h]
theorem microStep_latLo (h : s.phase = .latLo) : microStep s = microLatLo s := by simp only [microStep, h]
theorem microStep_blankOff (h : s.phase = .blankOff) : microStep s = microBlankOff s := by simp only [microStep, h]
theorem microStep_rowHold (h : s.phase = .rowHold) : microStep s = microRowHold s := by simp only [microStep, h]

end

/-- What no micro-step changes. -/
theorem microStep_frame (s : State) :
    (microStep s).fb = s.fb ∧ (microStep s).lut = s.lut ∧ (microStep s).dwell = s.dwell ∧
    (microStep s).cause = s.cause ∧ (microStep s).host = s.host ∧ (microStep s).rsp = s.rsp := by
  cases hp : s.phase with
  | blankOn => simp [microStep_blankOn hp, microBlankOn]
  | setAddr => simp [microStep_setAddr hp, microSetAddr]
  | colUp => simp [microStep_colUp hp, microColUp]
  | colLo => simp [microStep_colLo hp, microColLo]
  | clkHi => simp [microStep_clkHi hp, microClkHi]
  | clkLo => rw [microStep_clkLo hp, microClkLo]; split <;> simp
  | latHi => simp [microStep_latHi hp, microLatHi]
  | latLo => simp [microStep_latLo hp, microLatLo]
  | blankOff => rw [microStep_blankOff hp, microBlankOff]; split <;> simp
  | rowHold => rw [microStep_rowHold hp, microRowHold]; dsimp only; split <;> simp

end Sys2Proof.Machine
end

