-- ==== Sys2Proof/Laws/Scan.lean ====
section
/-! SUPPORT. The scan sequencer apart from the host: a micro-step neither reads nor changes what the host will do, so a scan without
reset is the iteration of one function, and that function phase by phase. -/

namespace Sys2Proof.Machine

section
variable (s : State) (h : List HostAction)

theorem endOfRow_host : ({ s with host := h } : State).endOfRow = { s.endOfRow with host := h } := by
  unfold State.endOfRow
  split_ifs <;> rfl

theorem microStep_host : microStep { s with host := h } = { microStep s with host := h } := by
  cases hp : s.phase
  case clkLo =>
    simp only [microStep, hp, microClkLo]
    split_ifs <;> rfl
  case blankOff =>
    simp only [microStep, hp, microBlankOff]
    split_ifs
    · exact endOfRow_host (s.emit .oe false) h
    · rfl
  case rowHold =>
    simp only [microStep, hp, microRowHold]
    split_ifs
    · exact endOfRow_host { s with wait := s.wait - 1 } h
    · rfl
  all_goals simp only [microStep, hp]; rfl

end

/-- A micro-step stays in its mode or ends the refresh. -/
theorem endOfRow_mode (s : State) : s.endOfRow.mode = s.mode ∨ s.endOfRow.mode = .idle := by
  unfold State.endOfRow
  split_ifs <;> simp

theorem microStep_mode (s : State) : (microStep s).mode = s.mode ∨ (microStep s).mode = .idle := by
  cases hp : s.phase
  case clkLo =>
    simp only [microStep, hp, microClkLo]
    split_ifs <;> simp
  case blankOff =>
    simp only [microStep, hp, microBlankOff]
    split_ifs
    · simpa using endOfRow_mode (s.emit .oe false)
    · simp
  case rowHold =>
    rw [microStep_rowHold hp, microRowHold]
    dsimp only
    split_ifs
    · exact endOfRow_mode { s with wait := s.wait - 1 }
    · exact .inl rfl
  all_goals simp [microStep, hp, microBlankOn, microSetAddr, microColUp, microColLo, microClkHi, microLatHi, microLatLo]

/-- Whatever a step does, the host has moved on by one step. -/
theorem step_host {s t : State} (h : step s = .next t) : t.host = s.hostAfter := by
  rcases step_cases h with ⟨-, rfl⟩ | ⟨-, -, -, i, -, he⟩ | ⟨-, -, -, e, -, rfl⟩ | ⟨-, -, -, rfl⟩ | ⟨-, -, rfl⟩ | ⟨-, -, rfl⟩
  · simp
  · rcases exec_cases he with ⟨fb, rfl, -, -⟩ | ⟨n, -, rfl⟩ | ⟨x, y, -, rfl⟩ | ⟨-, rfl⟩ | ⟨-, rfl⟩ |
      ⟨x1, y1, x2, y2, k, -, -, rfl⟩ <;> rfl
  · simp
  · simp
  · simp [(microStep_frame s.beginStep).2.2.2.2.1]
  · simp

/-- Every step answers a next state. -/
theorem step_total (s : State) : ∃ t, step s = .next t := by
  unfold step cycle idleStep acceptWord
  split
  · exact ⟨_, rfl⟩
  · split
    · split
      · split
        · exact exec_total _ _
        · exact ⟨_, rfl⟩
      · exact ⟨_, rfl⟩
    · exact ⟨_, rfl⟩
    · exact ⟨_, rfl⟩

/-- The host asserts no reset in the next step, nor in what is left after it. -/
theorem State.noReset_pins {s : State} (h : s.noReset = true) : s.pins.rst = false := by
  have hp : ∀ a ∈ s.pending, a.keepsRunning = true := by
    intro a ha
    refine List.all_eq_true.1 h a ?_
    unfold State.pending at ha
    split at ha
    · exact (List.dropWhile_sublist _).mem ha
    · exact ha
  unfold State.pins
  split
  · rfl
  · next a rest hpe =>
    have := hp a (by simp [hpe])
    simpa [HostAction.keepsRunning] using this

theorem State.noReset_after {s t : State} (h : s.noReset = true) (ht : step s = .next t) : t.noReset = true := by
  rw [State.noReset, step_host ht]
  have hp : s.pending.all HostAction.keepsRunning = true := by
    refine List.all_eq_true.2 fun a ha => List.all_eq_true.1 h a ?_
    unfold State.pending at ha
    split at ha
    · exact (List.dropWhile_sublist _).mem ha
    · exact ha
  unfold State.hostAfter
  split
  · rfl
  · next a rest hpe =>
    rw [hpe, List.all_cons, Bool.and_eq_true] at hp
    split
    · exact hp.2
    · simp [hp.1, hp.2]

/-- One micro-step of the scan, apart from the host. -/
def State.scanNext (s : State) : State := microStep { s with writes := [], rsp := none }

/-- A scan step without reset is `scanNext`, up to what the host will do. -/
theorem step_scanNext {s : State} (hm : s.mode = .scan) (hr : s.pins.rst = false) :
    step s = .next { s.scanNext with host := s.hostAfter } := by
  rw [step_scan hm hr]
  exact congrArg _ (microStep_host { s with writes := [], rsp := none } s.hostAfter)

theorem State.scanNext_host (s : State) (h : List HostAction) :
    ({ s with host := h } : State).scanNext = { s.scanNext with host := h } :=
  microStep_host { s with writes := [], rsp := none } h

/-- `n` micro-steps apart from the host. -/
def State.scanIter : Nat → State → State
  | 0, s => s
  | n + 1, s => State.scanIter n s.scanNext

/-- The states after each of `n` micro-steps apart from the host. -/
def State.scanStates : Nat → State → List State
  | 0, _ => []
  | n + 1, s => s.scanNext :: State.scanStates n s.scanNext

theorem State.scanIter_add (m n : Nat) (s : State) : State.scanIter (m + n) s = State.scanIter n (State.scanIter m s) := by
  induction m generalizing s with
  | zero => simp [State.scanIter]
  | succ m ih => rw [Nat.succ_add]; exact ih s.scanNext

theorem State.scanStates_add (m n : Nat) (s : State) :
    State.scanStates (m + n) s = State.scanStates m s ++ State.scanStates n (State.scanIter m s) := by
  induction m generalizing s with
  | zero => simp [State.scanStates, State.scanIter]
  | succ m ih =>
    rw [Nat.succ_add]
    simp only [State.scanStates, State.scanIter, List.cons_append, ih]

theorem stateAfter_succ {s t : State} (h : step s = .next t) (n : Nat) : stateAfter (n + 1) s = stateAfter n t := by
  rw [stateAfter, h]

theorem runStates_succ {s t : State} (h : step s = .next t) (n : Nat) : runStates (n + 1) s = t :: runStates n t := by
  rw [runStates, h]

/-- While the scan lasts, a run without reset is the iteration, apart from the host. -/
theorem run_eq_scan : ∀ (n : Nat) (s : State), s.noReset = true →
    (∀ k, k < n → (State.scanIter k s).mode = .scan) →
    (stateAfter n s = { State.scanIter n s with host := (stateAfter n s).host }) ∧ (stateAfter n s).noReset = true ∧
    (runStates n s).map (fun t => { t with host := [] }) = (State.scanStates n s).map (fun t => { t with host := [] })
  | 0, _, hn, _ => ⟨rfl, hn, rfl⟩
  | n + 1, s, hn, h => by
    have hm : s.mode = .scan := h 0 (Nat.succ_pos n)
    have hs := step_scanNext hm (State.noReset_pins hn)
    have hn' := State.noReset_after hn hs
    have hit : ∀ (k : Nat) (u : State) (g : List HostAction),
        State.scanIter k { u with host := g } = { State.scanIter k u with host := g } := by
      intro k
      induction k with
      | zero => exact fun _ _ => rfl
      | succ k ih =>
        intro u g
        change State.scanIter k ({ u with host := g } : State).scanNext = _
        rw [State.scanNext_host u g, ih]
        rfl
    have hst : ∀ (k : Nat) (u : State) (g : List HostAction),
        (State.scanStates k { u with host := g }).map (fun t => { t with host := [] }) =
          (State.scanStates k u).map (fun t => { t with host := [] }) := by
      intro k
      induction k with
      | zero => exact fun _ _ => rfl
      | succ k ih =>
        intro u g
        simp only [State.scanStates, List.map_cons]
        rw [State.scanNext_host u g, ih]
    obtain ⟨h1, h2, h3⟩ := run_eq_scan n { s.scanNext with host := s.hostAfter } hn' fun k hk => by
      rw [hit]
      exact h (k + 1) (Nat.succ_lt_succ hk)
    rw [hit] at h1
    rw [hst] at h3
    refine ⟨?_, ?_, ?_⟩
    · rw [stateAfter_succ hs]
      exact h1
    · rw [stateAfter_succ hs]
      exact h2
    · rw [runStates_succ hs, List.map_cons, h3]
      rfl

end Sys2Proof.Machine
end

