-- ==== Sys2Proof/Laws/Refresh.lean ====
section
/-! SUPPORT. The scan sequencer run through one column and through the columns of one row: what is left, and what was written. -/

namespace Sys2Proof.Machine

/-- The column counter does not wrap where the loop goes on (42_scan_engine.md R160). -/
theorem column_succ : ∀ c : BitVec 5, c ≠ 31 → (c + 1).toNat = c.toNat + 1 := by decide

/-- The row counter does not wrap where the refresh goes on (42_scan_engine.md R165). -/
theorem row_succ : ∀ r : BitVec 3, r ≠ 7 → (r + 1).toNat = r.toNat + 1 := by decide

/-- The color lines show the two pixels of column `c` and CLK is low. -/
def State.columnOut (s : State) (c : BitVec 5) : Lines :=
  let up := s.codec (s.cell c (upperRow s.row))
  let lo := s.codec (s.cell c (lowerRow s.row))
  { s.out with rUp := up.r, gUp := up.g, bUp := up.b, rLo := lo.r, gLo := lo.g, bLo := lo.b, clk := false }

/-- The four states of one column. -/
theorem scanStates_column {s : State} (hp : s.phase = .colUp) :
    State.scanStates 4 s =
      let up := s.codec (s.cell s.col (upperRow s.row))
      let lo := s.codec (s.cell s.col (lowerRow s.row))
      let o1 : Lines := { s.out with rUp := up.r, gUp := up.g, bUp := up.b }
      let o2 : Lines := { o1 with rLo := lo.r, gLo := lo.g, bLo := lo.b }
      [ { s with out := o1, writes := [(.rUp, up.r), (.gUp, up.g), (.bUp, up.b)], rsp := none, phase := .colLo },
        { s with out := o2, writes := [(.rLo, lo.r), (.gLo, lo.g), (.bLo, lo.b)], rsp := none, phase := .clkHi },
        { s with out := { o2 with clk := true }, writes := [(.clk, true)], rsp := none, phase := .clkLo },
        State.scanIter 4 s ] := by
  obtain ⟨fb, lut, dwell, mode, cause, phase, row, col, wait, out, host, writes, rsp⟩ := s
  subst hp
  rfl

theorem scanIter_column_next {s : State} (hp : s.phase = .colUp) (hc : s.col ≠ 31) :
    State.scanIter 4 s =
      { s with out := s.columnOut s.col, writes := [(.clk, false)], rsp := none, phase := .colUp, col := s.col + 1 } := by
  obtain ⟨fb, lut, dwell, mode, cause, phase, row, col, wait, out, host, writes, rsp⟩ := s
  subst hp
  exact if_neg hc

theorem scanIter_column_last {s : State} (hp : s.phase = .colUp) (hc : s.col = 31) :
    State.scanIter 4 s =
      { s with out := s.columnOut s.col, writes := [(.clk, false)], rsp := none, phase := .latHi } := by
  obtain ⟨fb, lut, dwell, mode, cause, phase, row, col, wait, out, host, writes, rsp⟩ := s
  subst hp
  exact if_pos hc

/-- What the four micro-steps of one column write (42_scan_engine.md R168). -/
theorem scanStates_column_writes {s : State} (hp : s.phase = .colUp) (hl : s.lut = codecRom) :
    (State.scanStates 4 s).map (fun t => t.writes) = columnTrace s.fb s.row.toNat s.col.toNat := by
  have hw : (State.scanIter 4 s).writes = [(.clk, false)] := by
    by_cases hc : s.col = 31
    · rw [scanIter_column_last hp hc]
    · rw [scanIter_column_next hp hc]
  rw [scanStates_column hp]
  simp only [List.map_cons, List.map_nil, hw, columnTrace, State.codec_of_rom hl, State.cell, cellIndex_gridIndex,
    upperRow_toNat, lowerRow_toNat, Config.half]

/-- From column `31 - n` the column loop is left after `4 * (n + 1)` micro-steps. -/
theorem scanIter_columns : ∀ (n : Nat) (s : State), s.phase = .colUp → s.col.toNat + n = 31 →
    State.scanIter (4 * (n + 1)) s =
      { s with out := s.columnOut 31, writes := [(.clk, false)], rsp := none, phase := .latHi, col := 31 }
  | 0, s, hp, hn => by
    have hc : s.col = 31 := BitVec.eq_of_toNat_eq hn
    rw [show 4 * (0 + 1) = 4 from rfl, scanIter_column_last hp hc, hc]
  | n + 1, s, hp, hn => by
    have hc : s.col ≠ 31 := fun h => by rw [h] at hn; simp at hn
    have hcol := column_succ s.col hc
    rw [show 4 * (n + 1 + 1) = 4 + 4 * (n + 1) by omega, State.scanIter_add, scanIter_column_next hp hc,
      scanIter_columns n _ rfl (by change (s.col + 1).toNat + n = 31; omega)]
    rfl

/-- What the micro-steps of the columns from `31 - n` on write. -/
theorem scanStates_columns : ∀ (n : Nat) (s : State), s.phase = .colUp → s.col.toNat + n = 31 → s.lut = codecRom →
    (State.scanStates (4 * (n + 1)) s).map (fun t => t.writes) =
      (List.range' s.col.toNat (n + 1)).flatMap (columnTrace s.fb s.row.toNat) := by
  intro n
  induction n with
  | zero =>
    intro s hp hn hl
    simpa using scanStates_column_writes hp hl
  | succ n ih =>
    intro s hp hn hl
    have hc : s.col ≠ 31 := fun h => by rw [h] at hn; simp at hn
    have hcol := column_succ s.col hc
    rw [show 4 * (n + 1 + 1) = 4 + 4 * (n + 1) by omega, State.scanStates_add, List.map_append,
      scanStates_column_writes hp hl, scanIter_column_next hp hc,
      ih { s with out := s.columnOut s.col, writes := [(.clk, false)], rsp := none, phase := .colUp, col := s.col + 1 }
        rfl (by change (s.col + 1).toNat + n = 31; omega) hl,
      show List.range' s.col.toNat (n + 1 + 1) = s.col.toNat :: List.range' (s.col + 1).toNat (n + 1) by
        rw [hcol, List.range'_succ]]
    rfl

/-- The lines once a row has been shifted, latched and lit: they depend on the buffer, the ROM and the row alone. -/
def State.rowOut (s : State) : Lines :=
  let up := s.codec (s.cell 31 (upperRow s.row))
  let lo := s.codec (s.cell 31 (lowerRow s.row))
  { rUp := up.r, gUp := up.g, bUp := up.b, rLo := lo.r, gLo := lo.g, bLo := lo.b, clk := false, lat := false, oe := false,
    a := s.row.getLsbD 0, b := s.row.getLsbD 1, c := s.row.getLsbD 2 }

/-- From BLANK_ON to the micro-step LAT_HI. -/
theorem scanIter_shiftRow {s : State} (hp : s.phase = .blankOn) :
    State.scanIter 130 s =
      { s with
        out := { s.rowOut with oe := true, lat := s.out.lat }, writes := [(.clk, false)], rsp := none, phase := .latHi,
        col := 31 } := by
  obtain ⟨fb, lut, dwell, mode, cause, phase, row, col, wait, out, host, writes, rsp⟩ := s
  subst hp
  rw [show 130 = 2 + 4 * (31 + 1) from rfl, State.scanIter_add]
  rw [scanIter_columns 31 _ rfl rfl]
  rfl

/-- From BLANK_ON to the micro-step BLANK_OFF. -/
theorem scanIter_latchRow {s : State} (hp : s.phase = .blankOn) :
    State.scanIter 132 s =
      { s with
        out := { s.rowOut with oe := true }, writes := [(.lat, false)], rsp := none, phase := .blankOff, col := 31 } := by
  rw [show 132 = 130 + 2 from rfl, State.scanIter_add, scanIter_shiftRow hp]
  rfl

/-- One dwell unit (42_scan_engine.md R164). -/
theorem scanNext_rowHold {s : State} (hp : s.phase = .rowHold) :
    s.scanNext =
      if s.wait - 1 = 0 then ({ s with writes := [], rsp := none, wait := 0 } : State).endOfRow
      else { s with writes := [], rsp := none, wait := s.wait - 1 } := by
  unfold State.scanNext
  rw [microStep_rowHold (s := { s with writes := [], rsp := none }) hp, microRowHold]
  dsimp only
  by_cases h : s.wait - 1 = 0
  · rw [if_pos h, if_pos h, h]
  · rw [if_neg h, if_neg h]

/-- The dwell: a row held with `n + 1` units to spend ends after as many micro-steps (42_scan_engine.md R164). -/
theorem scanIter_hold (n : Nat) : ∀ s : State, s.phase = .rowHold → s.wait.toNat = n + 1 →
    State.scanIter (n + 1) s = ({ s with writes := [], rsp := none, wait := 0 } : State).endOfRow := by
  induction n with
  | zero =>
    intro s hp hw
    have hw' : s.wait = 1 := BitVec.eq_of_toNat_eq hw
    change s.scanNext = _
    rw [scanNext_rowHold hp, if_pos (by rw [hw']; rfl)]
  | succ n ih =>
    intro s hp hw
    have hsub : (s.wait - 1).toNat = n + 1 := by
      rw [BitVec.toNat_sub_of_le] <;> simp [BitVec.le_def, hw]
    have hne : s.wait - 1 ≠ 0 := fun h => by rw [h] at hsub; simp at hsub
    change State.scanIter (n + 1) s.scanNext = _
    rw [scanNext_rowHold hp, if_neg hne]
    exact ih { s with writes := [], rsp := none, wait := s.wait - 1 } hp hsub

/-- One whole scan row: `133 + DWELL` micro-steps (42_scan_engine.md R166). -/
theorem scanIter_row {s : State} (hp : s.phase = .blankOn) (hw : s.wait = 0) :
    State.scanIter (133 + s.dwell.toNat) s =
      ({ s with
        out := s.rowOut, writes := if s.dwell = 0 then [(.oe, false)] else [], rsp := none, col := 31,
        phase := if s.dwell = 0 then .blankOff else .rowHold } : State).endOfRow := by
  rw [show 133 + s.dwell.toNat = 132 + (1 + s.dwell.toNat) by omega, State.scanIter_add, scanIter_latchRow hp,
    State.scanIter_add]
  obtain ⟨fb, lut, dwell, mode, cause, phase, row, col, wait, out, host, writes, rsp⟩ := s
  by_cases hd : dwell = 0
  · subst hd
    rfl
  · obtain ⟨n, hn⟩ : ∃ n, dwell.toNat = n + 1 :=
      Nat.exists_eq_succ_of_ne_zero fun h => hd (BitVec.eq_of_toNat_eq h)
    have hone : State.scanIter 1
        { fb := fb, lut := lut, dwell := dwell, mode := mode, cause := cause, phase := .blankOff, row := row, col := 31,
          wait := wait, out := { State.rowOut ⟨fb, lut, dwell, mode, cause, phase, row, col, wait, out, host, writes, rsp⟩ with
            oe := true }, host := host, writes := [(.lat, false)], rsp := none } =
        { fb := fb, lut := lut, dwell := dwell, mode := mode, cause := cause, phase := .rowHold, row := row, col := 31,
          wait := dwell, out := State.rowOut ⟨fb, lut, dwell, mode, cause, phase, row, col, wait, out, host, writes, rsp⟩,
          host := host, writes := [(.oe, false)], rsp := none } := if_neg hd
    simp only [hn, if_neg hd]
    rw [hone, scanIter_hold n _ rfl hn]
    simp only at hw
    subst hw
    rfl

/-- The block is still in its mode when the last micro-step of a row begins. -/
theorem scanIter_hold_mode (n : Nat) : ∀ s : State, s.phase = .rowHold → s.wait.toNat = n + 1 →
    (State.scanIter n s).mode = s.mode := by
  induction n with
  | zero => exact fun _ _ _ => rfl
  | succ n ih =>
    intro s hp hw
    have hsub : (s.wait - 1).toNat = n + 1 := by
      rw [BitVec.toNat_sub_of_le] <;> simp [BitVec.le_def, hw]
    have hne : s.wait - 1 ≠ 0 := fun h => by rw [h] at hsub; simp at hsub
    change (State.scanIter n s.scanNext).mode = _
    rw [scanNext_rowHold hp, if_neg hne]
    exact ih { s with writes := [], rsp := none, wait := s.wait - 1 } hp hsub

theorem scanIter_row_mode {s : State} (hp : s.phase = .blankOn) :
    (State.scanIter (132 + s.dwell.toNat) s).mode = s.mode := by
  rw [State.scanIter_add, scanIter_latchRow hp]
  by_cases hd : s.dwell = 0
  · rw [hd]
    rfl
  · obtain ⟨n, hn⟩ : ∃ n, s.dwell.toNat = n + 1 :=
      Nat.exists_eq_succ_of_ne_zero fun h => hd (BitVec.eq_of_toNat_eq h)
    obtain ⟨fb, lut, dwell, mode, cause, phase, row, col, wait, out, host, writes, rsp⟩ := s
    simp only at hn hd
    have hnext : State.scanNext
        { fb := fb, lut := lut, dwell := dwell, mode := mode, cause := cause, phase := .blankOff, row := row, col := 31,
          wait := wait, out := { State.rowOut ⟨fb, lut, dwell, mode, cause, phase, row, col, wait, out, host, writes, rsp⟩ with
            oe := true }, host := host, writes := [(.lat, false)], rsp := none } =
        { fb := fb, lut := lut, dwell := dwell, mode := mode, cause := cause, phase := .rowHold, row := row, col := 31,
          wait := dwell, out := State.rowOut ⟨fb, lut, dwell, mode, cause, phase, row, col, wait, out, host, writes, rsp⟩,
          host := host, writes := [(.oe, false)], rsp := none } := if_neg hd
    simp only [hn, State.scanIter]
    rw [hnext, scanIter_hold_mode n _ rfl hn]

/-- A scan that is still on was on before. -/
theorem scanIter_scan_of_le {m n : Nat} {s : State} (hmn : m ≤ n) (h : (State.scanIter n s).mode = .scan) :
    (State.scanIter m s).mode = .scan := by
  obtain ⟨k, rfl⟩ := Nat.exists_eq_add_of_le hmn
  rw [State.scanIter_add] at h
  generalize State.scanIter m s = u at h ⊢
  induction k generalizing u with
  | zero => exact h
  | succ k ih =>
    have hu : u.scanNext.mode = .scan := ih (by omega) u.scanNext h
    rcases microStep_mode { u with writes := [], rsp := none } with hm | hm
    · exact (hm.symm.trans hu : u.mode = .scan)
    · exact absurd ((hm.symm.trans hu : Mode.idle = .scan)) (by decide)

/-- The write list of the last micro-step of a row: BLANK_OFF's when there is no dwell, ROW_HOLD's otherwise. -/
def lastWrites (dwell : BitVec 16) : WriteList := if dwell = 0 then [(.oe, false)] else []

/-- A row before row 7, run through, is followed by the next row. -/
theorem scanIter_row_next {s : State} (hp : s.phase = .blankOn) (hw : s.wait = 0) (hr : s.row ≠ 7) :
    State.scanIter (133 + s.dwell.toNat) s =
      { s with
        out := s.rowOut, writes := lastWrites s.dwell, rsp := none, col := 31, row := s.row + 1, phase := .blankOn } := by
  rw [scanIter_row hp hw]
  exact State.endOfRow_next hr

/-- Row 7, run through, ends the refresh. -/
theorem scanIter_row_last {s : State} (hp : s.phase = .blankOn) (hw : s.wait = 0) (hr : s.row = 7) :
    State.scanIter (133 + s.dwell.toNat) s =
      { s with
        out := s.rowOut, writes := lastWrites s.dwell, rsp := none, mode := .idle, phase := .blankOn, row := 0, col := 0,
        wait := 0 } := by
  rw [scanIter_row hp hw]
  exact State.endOfRow_last hr

/-- No dwell unit writes a line (42_scan_engine.md R164). -/
theorem scanStates_hold_writes (n : Nat) : ∀ s : State, s.phase = .rowHold → s.wait.toNat = n →
    (State.scanStates n s).map (fun t => t.writes) = List.replicate n [] := by
  induction n with
  | zero => exact fun _ _ _ => rfl
  | succ n ih =>
    intro s hp hw
    simp only [State.scanStates, List.map_cons, List.replicate_succ, scanNext_rowHold hp]
    by_cases h : s.wait - 1 = 0
    · have h1 : s.wait = 1 := sub_eq_zero.1 h
      have hn : n = 0 := by
        rw [h1] at hw
        simpa using hw.symm
      subst hn
      rw [if_pos h]
      simp [State.scanStates]
    · rw [if_neg h, ih { s with writes := [], rsp := none, wait := s.wait - 1 } hp]
      change (s.wait - 1).toNat = n
      rw [BitVec.toNat_sub_of_le] <;> simp [BitVec.le_def, hw]

/-- BLANK_OFF writes OE alone, held row or not (42_scan_engine.md R163). -/
theorem microBlankOff_writes (s : State) : (microBlankOff s).writes = s.writes ++ [(.oe, false)] := by
  unfold microBlankOff State.endOfRow
  split_ifs <;> rfl

/-- What the micro-steps of one row write (42_scan_engine.md R168). -/
theorem scanStates_row_writes {s : State} (hp : s.phase = .blankOn) (hl : s.lut = codecRom) :
    (State.scanStates (133 + s.dwell.toNat) s).map (fun t => t.writes) = rowTrace s.fb s.dwell.toNat s.row.toNat := by
  have hstart : State.scanIter 2 s =
      { s with
        out := { s.out with oe := true, a := s.row.getLsbD 0, b := s.row.getLsbD 1, c := s.row.getLsbD 2 },
        writes := [(.a, s.row.getLsbD 0), (.b, s.row.getLsbD 1), (.c, s.row.getLsbD 2)], rsp := none, col := 0,
        phase := .colUp } := by
    obtain ⟨fb, lut, dwell, mode, cause, phase, row, col, wait, out, host, writes, rsp⟩ := s
    subst hp
    rfl
  have haddr : (State.scanStates 2 s).map (fun t => t.writes) =
      [ [(.oe, true)], [(.a, s.row.toNat.testBit 0), (.b, s.row.toNat.testBit 1), (.c, s.row.toNat.testBit 2)] ] := by
    obtain ⟨fb, lut, dwell, mode, cause, phase, row, col, wait, out, host, writes, rsp⟩ := s
    subst hp
    rfl
  have hcols : (State.scanStates 128 (State.scanIter 2 s)).map (fun t => t.writes) =
      (List.range Config.cols).flatMap (columnTrace s.fb s.row.toNat) := by
    rw [show 128 = 4 * (31 + 1) from rfl,
      scanStates_columns 31 (State.scanIter 2 s) (by rw [hstart]) (by rw [hstart]; rfl) (by rw [hstart]; exact hl), hstart,
      List.range_eq_range']
    rfl
  have hlatch : (State.scanStates 3 (State.scanIter 130 s)).map (fun t => t.writes) =
      [ [(.lat, true)], [(.lat, false)], [(.oe, false)] ] := by
    rw [scanIter_shiftRow hp]
    simp [State.scanStates, State.scanNext, microStep, microLatHi, microLatLo, microBlankOff_writes]
  have hdwell : (State.scanStates s.dwell.toNat (State.scanIter 133 s)).map (fun t => t.writes) =
      List.replicate s.dwell.toNat [] := by
    rw [show 133 = 132 + 1 from rfl, State.scanIter_add, scanIter_latchRow hp]
    by_cases hd : s.dwell = 0
    · rw [hd]
      rfl
    · have hnext : State.scanIter 1
          { s with out := { s.rowOut with oe := true }, writes := [(.lat, false)], rsp := none, phase := .blankOff,
                   col := 31 } =
          { s with out := s.rowOut, writes := [(.oe, false)], rsp := none, phase := .rowHold, col := 31,
                   wait := s.dwell } := if_neg hd
      rw [hnext]
      exact scanStates_hold_writes _ _ rfl rfl
  rw [show 133 + s.dwell.toNat = 2 + (128 + (3 + s.dwell.toNat)) by omega, State.scanStates_add, State.scanStates_add,
    State.scanStates_add, List.map_append, List.map_append, List.map_append, ← State.scanIter_add, ← State.scanIter_add,
    haddr, hcols, hlatch, hdwell]
  simp only [rowTrace, List.append_assoc]

/-- Anything a run shows of its states, host apart, it shows of the iteration while the scan lasts. -/
theorem runStates_map_scan {α : Type} {n : Nat} {s : State} (hn : s.noReset = true)
    (h : ∀ k, k < n → (State.scanIter k s).mode = .scan) (f : State → α) (hf : ∀ t g, f { t with host := g } = f t) :
    (runStates n s).map f = (State.scanStates n s).map f := by
  simpa [List.map_map, Function.comp_def, hf] using congrArg (List.map f) (run_eq_scan n s hn h).2.2

/-- No micro-step changes the frame buffer, the ROM or DWELL (10_state.md R30). -/
theorem scanIter_frame (n : Nat) (s : State) :
    (State.scanIter n s).fb = s.fb ∧ (State.scanIter n s).lut = s.lut ∧ (State.scanIter n s).dwell = s.dwell := by
  induction n generalizing s with
  | zero => exact ⟨rfl, rfl, rfl⟩
  | succ n ih =>
    obtain ⟨h1, h2, h3⟩ := ih s.scanNext
    obtain ⟨f1, f2, f3, -⟩ := microStep_frame { s with writes := [], rsp := none }
    exact ⟨h1.trans f1, h2.trans f2, h3.trans f3⟩

/-- The rows from the current one to row 7, run through: the refresh is over, and not before. -/
theorem scanIter_rows (n : Nat) : ∀ s : State, s.phase = .blankOn → s.wait = 0 → s.mode = .scan → s.row.toNat + n = 7 →
    State.scanIter ((133 + s.dwell.toNat) * (n + 1)) s =
      { s with
        out := ({ s with row := 7 } : State).rowOut, writes := lastWrites s.dwell, rsp := none, mode := .idle,
        phase := .blankOn, row := 0, col := 0, wait := 0 } ∧
    ∀ k, k < (133 + s.dwell.toNat) * (n + 1) → (State.scanIter k s).mode = .scan := by
  induction n with
  | zero =>
    intro s hp hw hm hr
    have hr7 : s.row = 7 := BitVec.eq_of_toNat_eq hr
    constructor
    · rw [show (133 + s.dwell.toNat) * (0 + 1) = 133 + s.dwell.toNat by omega, scanIter_row_last hp hw hr7]
      simp only [State.rowOut, hr7, State.codec, State.cell]
    · intro k hk
      refine scanIter_scan_of_le (n := 132 + s.dwell.toNat) (by omega) ?_
      rw [scanIter_row_mode hp, hm]
  | succ n ih =>
    intro s hp hw hm hr
    have hr7 : s.row ≠ 7 := fun h => by
      rw [h] at hr
      simp at hr
    have hrow := row_succ s.row hr7
    have hone := scanIter_row_next hp hw hr7
    obtain ⟨h1, h2⟩ := ih
      { s with
        out := s.rowOut, writes := lastWrites s.dwell, rsp := none, col := 31, row := s.row + 1, phase := .blankOn }
      rfl hw hm (by change (s.row + 1).toNat + n = 7; omega)
    have hmul : (133 + s.dwell.toNat) * (n + 1 + 1) = (133 + s.dwell.toNat) + (133 + s.dwell.toNat) * (n + 1) := by ring
    constructor
    · rw [hmul, State.scanIter_add, hone, h1]
      rfl
    · intro k hk
      rw [hmul] at hk
      by_cases hkk : k < 133 + s.dwell.toNat
      · refine scanIter_scan_of_le (n := 132 + s.dwell.toNat) (by omega) ?_
        rw [scanIter_row_mode hp, hm]
      · obtain ⟨j, rfl⟩ := Nat.exists_eq_add_of_le (Nat.le_of_not_lt hkk)
        rw [State.scanIter_add, hone]
        exact h2 j (by change j < (133 + s.dwell.toNat) * (n + 1); omega)

/-- What the rows from the current one to row 7 write. -/
theorem scanStates_rows_writes (n : Nat) : ∀ s : State, s.phase = .blankOn → s.wait = 0 → s.lut = codecRom →
    s.row.toNat + n = 7 →
    (State.scanStates ((133 + s.dwell.toNat) * (n + 1)) s).map (fun t => t.writes) =
      (List.range' s.row.toNat (n + 1)).flatMap (rowTrace s.fb s.dwell.toNat) := by
  induction n with
  | zero =>
    intro s hp hw hl hr
    simpa using scanStates_row_writes hp hl
  | succ n ih =>
    intro s hp hw hl hr
    have hr7 : s.row ≠ 7 := fun h => by
      rw [h] at hr
      simp at hr
    have hrow := row_succ s.row hr7
    have hone := scanIter_row_next hp hw hr7
    have h1 := ih
      { s with
        out := s.rowOut, writes := lastWrites s.dwell, rsp := none, col := 31, row := s.row + 1, phase := .blankOn }
      rfl hw hl (by change (s.row + 1).toNat + n = 7; omega)
    have hmul : (133 + s.dwell.toNat) * (n + 1 + 1) = (133 + s.dwell.toNat) + (133 + s.dwell.toNat) * (n + 1) := by ring
    rw [hmul, State.scanStates_add, List.map_append, hone, scanStates_row_writes hp hl, h1,
      show List.range' s.row.toNat (n + 1 + 1) = s.row.toNat :: List.range' (s.row + 1).toNat (n + 1) by
        rw [hrow, List.range'_succ]]
    rfl

/-- The step that accepts a REFRESH. -/
theorem step_refresh {s : State} (ha : s.accepts = true) (hd : decode s.pins.cmdData = .ok .refresh) :
    step s = .next s.beginStep.startScan := by
  rw [State.accepts_iff] at ha
  simp [step, cycle, ha, idleStep, acceptWord, hd, exec, execRefresh]

/-- The micro-steps of a whole refresh: where they end, and that the scan lasts until then. -/
theorem scanIter_refresh (s : State) :
    State.scanIter (8 * (133 + s.dwell.toNat)) s.startScan =
      { s with
        out := ({ s with row := 7 } : State).rowOut, writes := lastWrites s.dwell, rsp := none, mode := .idle,
        phase := .blankOn, row := 0, col := 0, wait := 0 } ∧
    ∀ k, k < 8 * (133 + s.dwell.toNat) → (State.scanIter k s.startScan).mode = .scan := by
  rw [Nat.mul_comm]
  exact scanIter_rows 7 s.startScan rfl rfl rfl rfl

/-- Where the scan stands when row `r` of a refresh begins. -/
theorem scanIter_rows_before (r : Nat) : ∀ s : State, r < 8 →
    ∃ out writes rsp col, State.scanIter (r * (133 + s.dwell.toNat)) s.startScan =
      { s.startScan with out := out, writes := writes, rsp := rsp, col := col, row := BitVec.ofNat 3 r } := by
  induction r with
  | zero => exact fun s _ => ⟨s.out, s.writes, s.rsp, 0, by rw [Nat.zero_mul]; rfl⟩
  | succ r ih =>
    intro s h
    obtain ⟨o, w, rsp, c, he⟩ := ih s (by omega)
    have h7 : BitVec.ofNat 3 r ≠ 7 := fun h' => by
      have := congrArg BitVec.toNat h'
      simp at this
      omega
    have hnext := scanIter_row_next
      (s := { s.startScan with out := o, writes := w, rsp := rsp, col := c, row := BitVec.ofNat 3 r }) rfl rfl h7
    have hrow : BitVec.ofNat 3 r + 1 = BitVec.ofNat 3 (r + 1) := BitVec.eq_of_toNat_eq (by simp)
    rw [Nat.succ_mul, State.scanIter_add, he, ← hrow]
    exact ⟨_, _, _, _, hnext⟩

theorem scanStates_length (n : Nat) : ∀ s : State, (State.scanStates n s).length = n := by
  induction n with
  | zero => exact fun _ => rfl
  | succ n ih => exact fun s => by rw [State.scanStates, List.length_cons, ih]

end Sys2Proof.Machine
end

