-- ==== Sys2Proof/Laws/Panel.lean ====
section
/-! SUPPORT. What the informative panel of 42_scan_engine.md R178 sees of the lines: nothing, one column, one row, a whole refresh. -/

namespace Sys2Proof.Machine

theorem observeAll_append (e : ShiftEdge) (xs ys : List Lines) : ∀ (p : Panel) (b : Lines),
    Panel.observeAll e p b (xs ++ ys) =
      Panel.observeAll e (Panel.observeAll e p b xs) ((b :: xs).getLast (List.cons_ne_nil b xs)) ys := by
  induction xs with
  | nil => exact fun _ _ => rfl
  | cons x xs ih =>
    intro p b
    simp only [List.cons_append, Panel.observeAll, ih]
    rfl

/-- While CLK and LAT stay low the panel sees nothing. -/
theorem observeAll_quiet (e : ShiftEdge) (xs : List Lines) : ∀ (p : Panel) (b : Lines), b.clk = false → b.lat = false →
    (∀ x ∈ xs, x.clk = false ∧ x.lat = false) → Panel.observeAll e p b xs = p := by
  induction xs with
  | nil => exact fun _ _ _ _ _ => rfl
  | cons x xs ih =>
    intro p b h1 h2 h
    have hx := h x List.mem_cons_self
    have hp : p.observe e b x = p := by
      cases e <;> simp [Panel.observe, shiftEdgeSeen, h1, h2, hx]
    rw [Panel.observeAll, hp, ih p x hx.1 hx.2 fun y hy => h y (List.mem_cons_of_mem x hy)]

/-- The last line levels of a stretch of micro-steps. -/
theorem scanStates_outs_getLast (n : Nat) : ∀ s : State,
    (s.out :: (State.scanStates n s).map fun t => t.out).getLast (List.cons_ne_nil _ _) = (State.scanIter n s).out := by
  induction n with
  | zero => exact fun _ => rfl
  | succ n ih => exact fun s => ih s.scanNext

theorem observe_scan_add (e : ShiftEdge) (p : Panel) (m n : Nat) (s : State) :
    Panel.observeAll e p s.out ((State.scanStates (m + n) s).map fun t => t.out) =
      Panel.observeAll e (Panel.observeAll e p s.out ((State.scanStates m s).map fun t => t.out))
        (State.scanIter m s).out ((State.scanStates n (State.scanIter m s)).map fun t => t.out) := by
  rw [State.scanStates_add, List.map_append, observeAll_append, scanStates_outs_getLast]

/-- One column shifts its two pixels in, whichever CLK edge the panel samples on (42_scan_engine.md R158). -/
theorem observe_column (e : ShiftEdge) (p : Panel) {s : State} (hp : s.phase = .colUp) (hc : s.out.clk = false)
    (hl : s.out.lat = false) :
    Panel.observeAll e p s.out ((State.scanStates 4 s).map fun t => t.out) = p.shiftIn (s.columnOut s.col) := by
  have h4 : (State.scanIter 4 s).out = s.columnOut s.col := by
    by_cases h : s.col = 31
    · rw [scanIter_column_last hp h]
    · rw [scanIter_column_next hp h]
  rw [scanStates_column hp]
  dsimp only
  simp only [List.map_cons, List.map_nil, h4]
  cases e <;> simp [Panel.observeAll, Panel.observe, shiftEdgeSeen, hc, hl, State.columnOut, Panel.shiftIn]

/-- The colors of columns `c, c + 1, …` of a row, the last one first. -/
def State.rowColors (s : State) (y c n : Nat) : List Rgb :=
  (List.range' c n).reverse.map fun x => s.codec (s.fb.read (gridIndex x y))

theorem State.rowColors_succ (s : State) (y c n : Nat) :
    s.rowColors y c (n + 1) = s.rowColors y (c + 1) n ++ [s.codec (s.fb.read (gridIndex c y))] := by
  simp [State.rowColors, List.range'_succ]

theorem take_append_take (k : Nat) (l m : List Rgb) : (l ++ m.take k).take k = (l ++ m).take k := by
  rw [List.take_append, List.take_append, List.take_take, Nat.min_eq_left (Nat.sub_le _ _)]

theorem State.columnOut_colors (s : State) (c : BitVec 5) :
    (⟨(s.columnOut c).rUp, (s.columnOut c).gUp, (s.columnOut c).bUp⟩ : Rgb) =
      s.codec (s.fb.read (gridIndex c.toNat s.row.toNat)) ∧
    (⟨(s.columnOut c).rLo, (s.columnOut c).gLo, (s.columnOut c).bLo⟩ : Rgb) =
      s.codec (s.fb.read (gridIndex c.toNat (s.row.toNat + 8))) := by
  rw [← lowerRow_toNat, ← cellIndex_gridIndex, ← upperRow_toNat, ← cellIndex_gridIndex]
  exact ⟨rfl, rfl⟩

/-- The columns from the current one to column 31 shift their pixels in. -/
theorem observe_columns (e : ShiftEdge) (n : Nat) : ∀ (p : Panel) (s : State), s.phase = .colUp → s.out.clk = false →
    s.out.lat = false → s.col.toNat + n = 31 →
    Panel.observeAll e p s.out ((State.scanStates (4 * (n + 1)) s).map fun t => t.out) =
      { p with
        shiftUp := (s.rowColors s.row.toNat s.col.toNat (n + 1) ++ p.shiftUp).take 32
        shiftLo := (s.rowColors (s.row.toNat + 8) s.col.toNat (n + 1) ++ p.shiftLo).take 32 } := by
  induction n with
  | zero =>
    intro p s hp hc hl _
    rw [show 4 * (0 + 1) = 4 from rfl, observe_column e p hp hc hl, Panel.shiftIn, (s.columnOut_colors s.col).1,
      (s.columnOut_colors s.col).2]
    rfl
  | succ n ih =>
    intro p s hp hc hl hn
    have h31 : s.col ≠ 31 := fun h => by
      rw [h] at hn
      simp at hn
    have hcol := column_succ s.col h31
    have hu := scanIter_column_next hp h31
    rw [show 4 * (n + 1 + 1) = 4 + 4 * (n + 1) by ring, observe_scan_add, observe_column e p hp hc hl]
    generalize State.scanIter 4 s = u at hu ⊢
    have hout : u.out = s.columnOut s.col := by rw [hu]
    have hcu : u.col.toNat = s.col.toNat + 1 := by rw [hu]; exact hcol
    have hrow : u.row = s.row := by rw [hu]
    have hcolors : ∀ y c n, u.rowColors y c n = s.rowColors y c n := by
      intro y c n
      rw [hu]
      rfl
    rw [ih _ u (by rw [hu]) (by rw [hout]; rfl) (by rw [hout]; exact hl) (by omega), hcolors, hcolors, hcu, hrow,
      s.rowColors_succ s.row.toNat s.col.toNat (n + 1), s.rowColors_succ (s.row.toNat + 8) s.col.toNat (n + 1),
      ← (s.columnOut_colors s.col).1, ← (s.columnOut_colors s.col).2, Panel.shiftIn, List.append_assoc, List.append_assoc]
    simp only [Config.cols, take_append_take, List.singleton_append]

/-- While a row is held the lines stay as they are. -/
theorem scanStates_hold_outs (n : Nat) : ∀ s : State, s.phase = .rowHold → s.wait.toNat = n →
    ∀ x ∈ (State.scanStates n s).map (fun t => t.out), x = s.out := by
  induction n with
  | zero => simp [State.scanStates]
  | succ n ih =>
    intro s hp hw x hx
    simp only [State.scanStates, List.map_cons, List.mem_cons, scanNext_rowHold hp] at hx
    by_cases h : s.wait - 1 = 0
    · have h1 : s.wait = 1 := sub_eq_zero.1 h
      have hn : n = 0 := by
        rw [h1] at hw
        simpa using hw.symm
      subst hn
      rw [if_pos h] at hx
      rcases hx with hx | hx
      · exact hx.trans (State.endOfRow_out _)
      · simp [State.scanStates] at hx
    · rw [if_neg h] at hx
      rcases hx with hx | hx
      · exact hx
      · refine ih { s with writes := [], rsp := none, wait := s.wait - 1 } hp ?_ x hx
        change (s.wait - 1).toNat = n
        rw [BitVec.toNat_sub_of_le] <;> simp [BitVec.le_def, hw]

/-- From BLANK_OFF to the end of the row the lines stay as BLANK_OFF leaves them. -/
theorem scanStates_lit_outs {s : State} (hp : s.phase = .blankOff) :
    ∀ x ∈ (State.scanStates (1 + s.dwell.toNat) s).map (fun t => t.out), x = { s.out with oe := false } := by
  intro x hx
  rw [State.scanStates_add, List.map_append, List.mem_append] at hx
  have hone : State.scanStates 1 s = [State.scanIter 1 s] := rfl
  have hout : (State.scanIter 1 s).out = { s.out with oe := false } := by
    change (microStep { s with writes := [], rsp := none }).out = _
    rw [microStep_blankOff (s := { s with writes := [], rsp := none }) hp, microBlankOff]
    split_ifs
    · exact State.endOfRow_out _
    · rfl
  rcases hx with hx | hx
  · rw [hone, List.map_singleton, List.mem_singleton] at hx
    rw [hx, hout]
  · by_cases hd : s.dwell = 0
    · rw [hd] at hx
      simp [State.scanStates] at hx
    · have hnext : (State.scanIter 1 s).phase = .rowHold ∧ (State.scanIter 1 s).wait = s.dwell := by
        change (microStep { s with writes := [], rsp := none }).phase = _ ∧
          (microStep { s with writes := [], rsp := none }).wait = _
        rw [microStep_blankOff (s := { s with writes := [], rsp := none }) hp, microBlankOff, if_neg (by exact hd)]
        exact ⟨rfl, rfl⟩
      rw [scanStates_hold_outs _ _ hnext.1 (congrArg _ hnext.2) x hx, hout]

/-- One row leaves its two rows of colors in the drivers of rows `row` and `row + 8` (42_scan_engine.md R178). -/
theorem observe_row (e : ShiftEdge) (p : Panel) {s : State} (hp : s.phase = .blankOn) (hc : s.out.clk = false)
    (hl : s.out.lat = false) :
    Panel.observeAll e p s.out ((State.scanStates (133 + s.dwell.toNat) s).map fun t => t.out) =
      { shiftUp := s.rowColors s.row.toNat 0 32, shiftLo := s.rowColors (s.row.toNat + 8) 0 32,
        drivers := (p.drivers.setIfInBounds s.row.toNat (s.rowColors s.row.toNat 0 32)).setIfInBounds
          (s.row.toNat + 8) (s.rowColors (s.row.toNat + 8) 0 32) } := by
  have hstart : State.scanIter 2 s =
      { s with
        out := { s.out with oe := true, a := s.row.getLsbD 0, b := s.row.getLsbD 1, c := s.row.getLsbD 2 },
        writes := [(.a, s.row.getLsbD 0), (.b, s.row.getLsbD 1), (.c, s.row.getLsbD 2)], rsp := none, col := 0,
        phase := .colUp } := by
    obtain ⟨fb, lut, dwell, mode, cause, phase, row, col, wait, out, host, writes, rsp⟩ := s
    subst hp
    rfl
  have hquiet : ∀ x ∈ (State.scanStates 2 s).map (fun t => t.out), x.clk = false ∧ x.lat = false := by
    obtain ⟨fb, lut, dwell, mode, cause, phase, row, col, wait, out, host, writes, rsp⟩ := s
    subst hp
    intro x hx
    simp only [State.scanStates, State.scanNext, microStep, microBlankOn, microSetAddr, List.map_cons, List.map_nil,
      List.mem_cons, List.not_mem_nil, or_false] at hx
    rcases hx with rfl | rfl <;> exact ⟨hc, hl⟩
  have hlen : ∀ y, (s.rowColors y 0 32).length = 32 := fun y => by simp [State.rowColors]
  have hcols : Panel.observeAll e p s.out ((State.scanStates 130 s).map fun t => t.out) =
      { p with shiftUp := s.rowColors s.row.toNat 0 32, shiftLo := s.rowColors (s.row.toNat + 8) 0 32 } := by
    rw [show 130 = 2 + 4 * (31 + 1) from rfl, observe_scan_add, observeAll_quiet e _ p s.out hc hl hquiet]
    generalize State.scanIter 2 s = u at hstart ⊢
    have hcolors : ∀ y c n, u.rowColors y c n = s.rowColors y c n := by
      intro y c n
      rw [hstart]
      rfl
    have hcol : u.col.toNat = 0 := by
      rw [hstart]
      rfl
    rw [observe_columns e 31 p u (by rw [hstart]) (by rw [hstart]; exact hc) (by rw [hstart]; exact hl) (by rw [hcol]),
      hcolors, hcolors, hcol, show u.row = s.row by rw [hstart], List.take_left' (hlen _), List.take_left' (hlen _)]
  have hlatch : Panel.observeAll e (Panel.observeAll e p s.out ((State.scanStates 130 s).map fun t => t.out))
      (State.scanIter 130 s).out ((State.scanStates 2 (State.scanIter 130 s)).map fun t => t.out) =
      { shiftUp := s.rowColors s.row.toNat 0 32, shiftLo := s.rowColors (s.row.toNat + 8) 0 32,
        drivers := (p.drivers.setIfInBounds s.row.toNat (s.rowColors s.row.toNat 0 32)).setIfInBounds
          (s.row.toNat + 8) (s.rowColors (s.row.toNat + 8) 0 32) } := by
    have hr : ({ s.rowOut with oe := true, lat := true } : Lines).rowAddress = s.row := by
      simp only [Lines.rowAddress, State.rowOut]
      generalize s.row = r
      revert r
      decide
    rw [hcols, scanIter_shiftRow hp, hl]
    cases e <;>
    · simp only [State.scanStates, State.scanNext, microStep, microLatHi, microLatLo, List.map_cons, List.map_nil,
        Panel.observeAll, Panel.observe, shiftEdgeSeen, State.emit_out, Lines.set]
      exact congrArg (fun r : BitVec 3 => (
        { shiftUp := s.rowColors s.row.toNat 0 32, shiftLo := s.rowColors (s.row.toNat + 8) 0 32,
          drivers := (p.drivers.setIfInBounds r.toNat (s.rowColors s.row.toNat 0 32)).setIfInBounds
            (r.toNat + 8) (s.rowColors (s.row.toNat + 8) 0 32) } : Panel)) hr
  rw [show 133 + s.dwell.toNat = 130 + (2 + (1 + s.dwell.toNat)) by omega, observe_scan_add, observe_scan_add,
    ← State.scanIter_add, hlatch]
  have hu := scanIter_latchRow hp
  change State.scanIter (130 + 2) s = _ at hu
  generalize State.scanIter (130 + 2) s = u at hu ⊢
  have hout : u.out = { s.rowOut with oe := true } := by rw [hu]
  refine observeAll_quiet e _ _ _ (by rw [hout]; rfl) (by rw [hout]; rfl) fun x hx => ?_
  rw [show s.dwell = u.dwell by rw [hu]] at hx
  rw [scanStates_lit_outs (s := u) (by rw [hu]) x hx, hout]
  exact ⟨rfl, rfl⟩

/-- The rows from the current one to row 7 leave their colors in their drivers and the drivers of the rows before alone. -/
theorem observe_rows (e : ShiftEdge) (n : Nat) : ∀ (p : Panel) (s : State), s.phase = .blankOn → s.wait = 0 →
    s.out.clk = false → s.out.lat = false → s.row.toNat + n = 7 →
    ∃ q, Panel.observeAll e p s.out ((State.scanStates ((133 + s.dwell.toNat) * (n + 1)) s).map fun t => t.out) = q ∧
      ∀ r : Nat, r < 8 →
        (r < s.row.toNat → q.drivers[r]? = p.drivers[r]? ∧ q.drivers[r + 8]? = p.drivers[r + 8]?) ∧
        (s.row.toNat ≤ r → q.drivers[r]? = some (s.rowColors r 0 32) ∧
          q.drivers[r + 8]? = some (s.rowColors (r + 8) 0 32)) := by
  induction n with
  | zero =>
    intro p s hp _ hc hl hr
    refine ⟨_, rfl, fun r h8 => ?_⟩
    rw [show (133 + s.dwell.toNat) * (0 + 1) = 133 + s.dwell.toNat by omega, observe_row e p hp hc hl]
    dsimp only
    constructor
    · intro h
      rw [Vector.getElem?_setIfInBounds_ne (by omega), Vector.getElem?_setIfInBounds_ne (by omega),
        Vector.getElem?_setIfInBounds_ne (by omega), Vector.getElem?_setIfInBounds_ne (by omega)]
      exact ⟨rfl, rfl⟩
    · intro h
      obtain rfl : r = s.row.toNat := by omega
      rw [Vector.getElem?_setIfInBounds_ne (by omega), Vector.getElem?_setIfInBounds_self_of_lt (by omega),
        Vector.getElem?_setIfInBounds_self_of_lt (by omega)]
      exact ⟨rfl, rfl⟩
  | succ n ih =>
    intro p s hp hw hc hl hr
    have hr7 : s.row ≠ 7 := fun h => by
      rw [h] at hr
      simp at hr
    have hrow := row_succ s.row hr7
    have hu := scanIter_row_next hp hw hr7
    rw [show (133 + s.dwell.toNat) * (n + 1 + 1) = (133 + s.dwell.toNat) + (133 + s.dwell.toNat) * (n + 1) by ring,
      observe_scan_add, observe_row e p hp hc hl]
    generalize State.scanIter (133 + s.dwell.toNat) s = u at hu ⊢
    have hcolors : ∀ y c n, u.rowColors y c n = s.rowColors y c n := by
      intro y c n
      rw [hu]
      rfl
    have hrow' : u.row.toNat = s.row.toNat + 1 := by
      rw [hu]
      exact hrow
    rw [show s.dwell = u.dwell by rw [hu]]
    obtain ⟨q, hq, h⟩ := ih
      { shiftUp := s.rowColors s.row.toNat 0 32, shiftLo := s.rowColors (s.row.toNat + 8) 0 32,
        drivers := (p.drivers.setIfInBounds s.row.toNat (s.rowColors s.row.toNat 0 32)).setIfInBounds
          (s.row.toNat + 8) (s.rowColors (s.row.toNat + 8) 0 32) }
      u (by rw [hu]) (by rw [hu]; exact hw) (by rw [hu]; rfl) (by rw [hu]; rfl) (by omega)
    refine ⟨q, hq, fun r h8 => ?_⟩
    obtain ⟨h1, h2⟩ := h r h8
    rw [hrow', hcolors, hcolors] at h2
    constructor
    · intro hlt
      obtain ⟨g1, g2⟩ := h1 (by omega)
      rw [g1, g2]
      dsimp only
      rw [Vector.getElem?_setIfInBounds_ne (by omega), Vector.getElem?_setIfInBounds_ne (by omega),
        Vector.getElem?_setIfInBounds_ne (by omega), Vector.getElem?_setIfInBounds_ne (by omega)]
      exact ⟨rfl, rfl⟩
    · intro hle
      by_cases he : r = s.row.toNat
      · subst he
        obtain ⟨g1, g2⟩ := h1 (by omega)
        rw [g1, g2]
        dsimp only
        rw [Vector.getElem?_setIfInBounds_ne (by omega), Vector.getElem?_setIfInBounds_self_of_lt (by omega),
          Vector.getElem?_setIfInBounds_self_of_lt (by omega)]
        exact ⟨rfl, rfl⟩
      · exact h2 (by omega)

/-- The columns of a row leave OE as it is. -/
theorem scanStates_columns_oe (n : Nat) : ∀ s : State, s.phase = .colUp → s.col.toNat + n = 31 →
    ∀ x ∈ (State.scanStates (4 * (n + 1)) s).map (fun t => t.out), x.oe = s.out.oe := by
  have hcol : ∀ s : State, s.phase = .colUp → ∀ x ∈ (State.scanStates 4 s).map (fun t => t.out), x.oe = s.out.oe := by
    intro s hp x hx
    have h4 : (State.scanIter 4 s).out = s.columnOut s.col := by
      by_cases h : s.col = 31
      · rw [scanIter_column_last hp h]
      · rw [scanIter_column_next hp h]
    rw [scanStates_column hp] at hx
    dsimp only at hx
    simp only [List.map_cons, List.map_nil, h4, List.mem_cons, List.not_mem_nil, or_false] at hx
    rcases hx with rfl | rfl | rfl | rfl <;> rfl
  induction n with
  | zero => exact fun s hp _ => hcol s hp
  | succ n ih =>
    intro s hp hn x hx
    have h31 : s.col ≠ 31 := fun h => by
      rw [h] at hn
      simp at hn
    have hu := scanIter_column_next hp h31
    rw [show 4 * (n + 1 + 1) = 4 + 4 * (n + 1) by ring, State.scanStates_add, List.map_append, List.mem_append] at hx
    rcases hx with hx | hx
    · exact hcol s hp x hx
    · have hcu := column_succ s.col h31
      generalize State.scanIter 4 s = u at hu hx
      rw [ih u (by rw [hu]) (by rw [hu]; change (s.col + 1).toNat + n = 31; omega) x hx, hu]
      rfl

/-- Of the micro-steps of one row the first 132 leave the panel blanked and the last `1 + DWELL` lit
(42_scan_engine.md R174, 70_reset_and_hazards.md R248). -/
theorem scanStates_row_oe {s : State} (hp : s.phase = .blankOn) :
    (∀ x ∈ (State.scanStates 132 s).map (fun t => t.out), x.oe = true) ∧
    ∀ x ∈ (State.scanStates (1 + s.dwell.toNat) (State.scanIter 132 s)).map (fun t => t.out), x.oe = false := by
  constructor
  · intro x hx
    rw [show 132 = 2 + (4 * (31 + 1) + 2) from rfl, State.scanStates_add, State.scanStates_add, List.map_append,
      List.map_append, List.mem_append, List.mem_append, ← State.scanIter_add,
      show 2 + 4 * (31 + 1) = 130 from rfl, scanIter_shiftRow hp] at hx
    rcases hx with hx | hx | hx
    · obtain ⟨fb, lut, dwell, mode, cause, phase, row, col, wait, out, host, writes, rsp⟩ := s
      subst hp
      simp only [State.scanStates, State.scanNext, microStep, microBlankOn, microSetAddr, List.map_cons, List.map_nil,
        List.mem_cons, List.not_mem_nil, or_false] at hx
      rcases hx with rfl | rfl <;> rfl
    · obtain ⟨fb, lut, dwell, mode, cause, phase, row, col, wait, out, host, writes, rsp⟩ := s
      subst hp
      exact scanStates_columns_oe 31 (State.scanIter 2 _) rfl rfl x hx
    · simp only [State.scanStates, State.scanNext, microStep, microLatHi, microLatLo, List.map_cons, List.map_nil,
        List.mem_cons, List.not_mem_nil, or_false] at hx
      rcases hx with rfl | rfl <;> rfl
  · intro x hx
    have hu := scanIter_latchRow hp
    generalize State.scanIter 132 s = u at hu hx
    rw [show s.dwell = u.dwell by rw [hu]] at hx
    rw [scanStates_lit_outs (s := u) (by rw [hu]) x hx]

end Sys2Proof.Machine
end

