-- ==== Sys2Proof/Laws/PerInstr.lean ====
section
/-! SUPPORT. What holds of every command as syntax, one lemma for each constructor: its word carries its opcode, and its operands
are in range for the assembler. -/

namespace Sys2Proof.Laws

/-- The command's word carries its opcode (30_encoding.md R86, R93). -/
def OpcodeField.Statement (i : Instr) : Prop :=
  fieldOpcode (encode i) =
    match i with
    | .setpix _ _ _ => 0x1
    | .fillrect _ _ _ _ _ => 0x2
    | .clear => 0x3
    | .rdpix _ _ => 0x4
    | .refresh => 0x5
    | .wrdwell _ => 0x6
    | .rddwell => 0x7

theorem OpcodeField.setpix (x : BitVec 5) (y : BitVec 4) (k : Color) : OpcodeField.Statement (.setpix x y k) := by
  simp only [OpcodeField.Statement, fieldOpcode, encode, bitVec_eq_iff, forall_lt_succ_iff, BitVec.getLsbD_extractLsb',
    BitVec.getLsbD_append]
  simp

theorem OpcodeField.fillrect (x1 : BitVec 5) (y1 : BitVec 4) (x2 : BitVec 6) (y2 : BitVec 5) (k : Color) :
    OpcodeField.Statement (.fillrect x1 y1 x2 y2 k) := by
  simp only [OpcodeField.Statement, fieldOpcode, encode, bitVec_eq_iff, forall_lt_succ_iff, BitVec.getLsbD_extractLsb',
    BitVec.getLsbD_append]
  simp

theorem OpcodeField.clear : OpcodeField.Statement .clear := rfl

theorem OpcodeField.rdpix (x : BitVec 5) (y : BitVec 4) : OpcodeField.Statement (.rdpix x y) := by
  simp only [OpcodeField.Statement, fieldOpcode, encode, bitVec_eq_iff, forall_lt_succ_iff, BitVec.getLsbD_extractLsb',
    BitVec.getLsbD_append]
  simp

theorem OpcodeField.refresh : OpcodeField.Statement .refresh := rfl

theorem OpcodeField.wrdwell (n : BitVec 16) : OpcodeField.Statement (.wrdwell n) := by
  simp only [OpcodeField.Statement, fieldOpcode, encode, bitVec_eq_iff, forall_lt_succ_iff, BitVec.getLsbD_extractLsb',
    BitVec.getLsbD_append]
  simp

theorem OpcodeField.rddwell : OpcodeField.Statement .rddwell := rfl

/-- The command's assembler form is well formed (30_encoding.md R99). -/
def OperandsInRange.Statement (i : Instr) : Prop := i.toAsm.wf = true

theorem OperandsInRange.setpix (x : BitVec 5) (y : BitVec 4) (k : Color) :
    OperandsInRange.Statement (.setpix x y k) := by
  simp only [OperandsInRange.Statement, Instr.toAsm, AsmCommand.wf, Bool.and_eq_true, decide_eq_true_eq]
  omega

theorem OperandsInRange.fillrect (x1 : BitVec 5) (y1 : BitVec 4) (x2 : BitVec 6) (y2 : BitVec 5) (k : Color) :
    OperandsInRange.Statement (.fillrect x1 y1 x2 y2 k) := by
  simp only [OperandsInRange.Statement, Instr.toAsm, AsmCommand.wf, Bool.and_eq_true, decide_eq_true_eq]
  omega

theorem OperandsInRange.clear : OperandsInRange.Statement .clear := rfl

theorem OperandsInRange.rdpix (x : BitVec 5) (y : BitVec 4) : OperandsInRange.Statement (.rdpix x y) := by
  simp only [OperandsInRange.Statement, Instr.toAsm, AsmCommand.wf, Bool.and_eq_true, decide_eq_true_eq]
  omega

theorem OperandsInRange.refresh : OperandsInRange.Statement .refresh := rfl

theorem OperandsInRange.wrdwell (n : BitVec 16) : OperandsInRange.Statement (.wrdwell n) := by
  simp only [OperandsInRange.Statement, Instr.toAsm, AsmCommand.wf, decide_eq_true_eq]
  omega

theorem OperandsInRange.rddwell : OperandsInRange.Statement .rddwell := rfl

end Sys2Proof.Laws
end

