-- ==== Sys2Proof/Laws/Program.lean ====
section
/-! SUPPORT. Runs of held command words: how runs join, and what each command leaves (92_eei_decisions.md D24). -/

namespace Sys2Proof.Machine

theorem stateAfter_add (m n : Nat) : ∀ s : State, stateAfter (m + n) s = stateAfter n (stateAfter m s) := by
  induction m with
  | zero => simp [stateAfter]
  | succ m ih =>
    intro s
    obtain ⟨t, ht⟩ := step_total s
    rw [Nat.succ_add, stateAfter_succ ht, stateAfter_succ ht, ih]

theorem runStates_add (m n : Nat) : ∀ s : State,
    runStates (m + n) s = runStates m s ++ runStates n (stateAfter m s) := by
  induction m with
  | zero => simp [runStates, stateAfter]
  | succ m ih =>
    intro s
    obtain ⟨t, ht⟩ := step_total s
    rw [Nat.succ_add, runStates_succ ht, runStates_succ ht, stateAfter_succ ht, ih, List.cons_append]

theorem responses_add (m n : Nat) (s : State) :
    responses (m + n) s = responses m s ++ responses n (stateAfter m s) := by
  simp only [responses, runStates_add, List.filterMap_append]

theorem responses_one {s t : State} (h : step s = .next t) : responses 1 s = t.rsp.toList := by
  rw [responses, runStates_succ h, runStates]
  cases h : t.rsp <;> simp [h]

/-- A held word in mode IDLE is what the next step sees, and the host goes on to the next. -/
theorem held_word {s : State} {w : Word} {rest : List HostAction} (hm : s.mode = .idle) (hh : s.host = .hold w :: rest) :
    s.accepts = true ∧ s.pins.cmdData = w ∧ s.hostAfter = rest := by
  simp [State.accepts, State.pins, State.hostAfter, State.pending, State.cmdReady, hm, hh,
    HostAction.isWait, HostAction.pins, HostAction.doneAfter]

/-- The step that takes up a held command runs it. -/
theorem step_held {s : State} {i : Instr} {rest : List HostAction} (hm : s.mode = .idle)
    (hh : s.host = .hold (encode i) :: rest) (hd : decode (encode i) = .ok i) :
    step s = exec i { s with host := rest, writes := [], rsp := none } := by
  obtain ⟨ha, hw, hr⟩ := held_word hm hh
  rw [State.accepts_iff] at ha
  simp [step, cycle, ha, idleStep, acceptWord, hw, hd, State.beginStep, hr]

/-- Held words contain no reset. -/
theorem noReset_holdAll {s : State} {cs : List Instr} (h : s.host = holdAll cs) : s.noReset = true := by
  simp [State.noReset, h, holdAll, HostAction.keepsRunning, HostAction.pins]

/-- Outside IDLE the held words stay (30_encoding.md R82). -/
theorem hostAfter_holdAll {s : State} {cs : List Instr} (hm : s.mode ≠ .idle) (h : s.host = holdAll cs) :
    s.hostAfter = holdAll cs := by
  cases cs <;> simp_all [State.hostAfter, State.pending, State.cmdReady, holdAll, HostAction.doneAfter]

theorem scanIter_host (n : Nat) : ∀ (s : State) (g : List HostAction),
    State.scanIter n { s with host := g } = { State.scanIter n s with host := g } := by
  induction n with
  | zero => exact fun _ _ => rfl
  | succ n ih =>
    intro s g
    rw [State.scanIter, State.scanNext_host, ih]
    rfl

theorem scan_keeps_holdAll {cs : List Instr} (n : Nat) : ∀ s : State, s.host = holdAll cs →
    (∀ k, k < n → (State.scanIter k s).mode = .scan) → (stateAfter n s).host = holdAll cs := by
  induction n with
  | zero => exact fun _ hh _ => hh
  | succ n ih =>
    intro s hh h
    have hm : s.mode = .scan := h 0 (Nat.succ_pos n)
    have hs := step_scanNext hm (State.noReset_pins (noReset_holdAll hh))
    rw [stateAfter_succ hs]
    refine ih _ (hostAfter_holdAll (by simp [hm]) hh) fun k hk => ?_
    rw [scanIter_host]
    exact h (k + 1) (Nat.succ_lt_succ hk)

/-- No micro-step answers. -/
theorem scanStates_rsp (n : Nat) : ∀ s : State, ∀ r ∈ (State.scanStates n s).map (fun t => t.rsp), r = none := by
  induction n with
  | zero => simp [State.scanStates]
  | succ n ih =>
    intro s r hr
    simp only [State.scanStates, List.map_cons, List.mem_cons] at hr
    rcases hr with rfl | hr
    · exact (microStep_frame { s with writes := [], rsp := none }).2.2.2.2.2
    · exact ih s.scanNext r hr

/-- A held REFRESH, run through: what it leaves, and that it answers nothing. -/
theorem refresh_held {s : State} {cs : List Instr} (hm : s.mode = .idle)
    (hh : s.host = .hold (encode .refresh) :: holdAll cs) :
    stateAfter (refreshSteps s.dwell.toNat) s =
      { s with
        out := ({ s with row := 7 } : State).rowOut, writes := lastWrites s.dwell, rsp := none, phase := .blankOn,
        row := 0, col := 0, wait := 0, host := holdAll cs } ∧
    responses (refreshSteps s.dwell.toNat) s = [] := by
  obtain ⟨ha, hw, hr⟩ := held_word hm hh
  have hd : decode s.pins.cmdData = .ok .refresh := by
    rw [hw]
    rfl
  have hs := step_refresh ha hd
  have hhost : s.beginStep.startScan.host = holdAll cs := hr
  have hn := noReset_holdAll hhost
  obtain ⟨h1, h2⟩ := scanIter_refresh s.beginStep
  have hrun := (run_eq_scan _ _ hn h2).1
  have hkeep := scan_keeps_holdAll _ _ hhost h2
  have hrsp := runStates_map_scan hn h2 (fun t => t.rsp) fun _ _ => rfl
  have hsteps : refreshSteps s.dwell.toNat = 8 * (133 + s.beginStep.dwell.toNat) + 1 := Nat.add_comm _ _
  constructor
  · rw [hsteps, stateAfter_succ hs, hrun, hkeep, h1]
    obtain ⟨fb, lut, dwell, mode, cause, phase, row, col, wait, out, host, writes, rsp⟩ := s
    subst hm
    rfl
  · rw [hsteps, responses, runStates_succ hs, List.filterMap_cons]
    change (runStates (8 * (133 + s.beginStep.dwell.toNat)) s.beginStep.startScan).filterMap (id ∘ fun t => t.rsp) = []
    rw [← List.filterMap_map, hrsp, List.filterMap_eq_nil_iff]
    exact scanStates_rsp _ _

/-- The commands of SNAPSHOT by their number (40_framebuffer.md R130). -/
theorem snapshotCommands_eq :
    snapshotCommands = (List.range 512).map fun n => .rdpix (.ofNat 5 (n % 32)) (.ofNat 4 (n / 32)) := by
  have h : ∀ rows : Nat, (List.range rows).flatMap (fun y => (List.range 32).map fun x => (x, y)) =
      (List.range (32 * rows)).map fun n => (n % 32, n / 32) := by
    intro rows
    induction rows with
    | zero => rfl
    | succ n ih =>
      rw [List.range_succ (n := n), List.flatMap_append, ih, Nat.mul_succ, List.range_add, List.map_append, List.map_map]
      simp only [List.flatMap_cons, List.flatMap_nil, List.append_nil, List.append_cancel_left_eq]
      refine List.map_congr_left fun x hx => ?_
      have hx' : x < 32 := List.mem_range.1 hx
      simp only [Function.comp_apply, Prod.mk.injEq]
      omega
  have h16 := congrArg (List.map fun p : Nat × Nat => Instr.rdpix (.ofNat 5 p.1) (.ofNat 4 p.2)) (h 16)
  simp only [List.map_flatMap, List.map_map, Function.comp_def] at h16
  exact h16

end Sys2Proof.Machine
end

