-- ==== Sys2Proof/Tests/Slice0.lean ====
section
/-! SUPPORT. Tests: the range checks, decoding, one step of each command, and a witness for the hypotheses of each statement.
Expected values are from 95_test_vectors.md, or worked out by hand from the rules named. -/

namespace Sys2Proof.Tests

open Sys2Proof.Machine

/-! ### The range checks (30_encoding.md R99) -/

theorem test_wf_setpix :
    (AsmCommand.setpix 31 15 7).wf = true ∧ (AsmCommand.setpix 32 15 7).wf = false ∧
    (AsmCommand.setpix 31 16 7).wf = false ∧ (AsmCommand.setpix 31 15 8).wf = false := by decide

theorem test_wf_fillrect :
    (AsmCommand.fillrect 31 15 63 31 7).wf = true ∧ (AsmCommand.fillrect 32 0 33 16 1).wf = false ∧
    (AsmCommand.fillrect 31 16 63 31 7).wf = false ∧ (AsmCommand.fillrect 31 15 64 31 7).wf = false ∧
    (AsmCommand.fillrect 31 15 63 32 7).wf = false ∧ (AsmCommand.fillrect 31 15 63 31 8).wf = false := by decide

theorem test_wf_rdpix :
    (AsmCommand.rdpix 31 15).wf = true ∧ (AsmCommand.rdpix 32 15).wf = false ∧
    (AsmCommand.rdpix 31 16).wf = false := by decide

theorem test_wf_wrdwell :
    (AsmCommand.wrdwell 65535).wf = true ∧ (AsmCommand.wrdwell 65536).wf = false := by decide

theorem test_assemble_refuses :
    (AsmCommand.setpix 5 3 2).assemble = some (.setpix 5 3 2) ∧ (AsmCommand.setpix 5 31 2).assemble = none ∧
    (AsmCommand.wrdwell 65536).assemble = none := by decide

/-! ### Decoding: words written field by field from 30_encoding.md R88 to R91 -/

theorem test_decode_setpix :
    decode 0b0001_00000_00101_0011_000000_00000_010#32 = .ok (.setpix 5 3 2) ∧
    decode 0b0001_00000_11111_0000_000000_00000_010#32 = .ok (.setpix 31 0 2) ∧
    decode 0b0001_00000_00000_1111_000000_00000_100#32 = .ok (.setpix 0 15 4) := by decide

theorem test_decode_fillrect :
    decode 0b0010_00000_00000_1000_100000_10000_010#32 = .ok (.fillrect 0 8 32 16 2) ∧
    decode 0b0010_00000_11111_0000_111111_00001_001#32 = .ok (.fillrect 31 0 63 1 1) := by decide

theorem test_decode_clear : decode 0b0011_0000000000000000000000000000#32 = .ok .clear := by decide

theorem test_decode_rdpix : decode 0b0100_00000_00101_0011_000000_00000_000#32 = .ok (.rdpix 5 3) := by decide

theorem test_decode_refresh : decode 0b0101_0000000000000000000000000000#32 = .ok .refresh := by decide

theorem test_decode_wrdwell : decode 0b0110_000000000000_1111111111111111#32 = .ok (.wrdwell 65535) := by decide

theorem test_decode_rddwell : decode 0b0111_0000000000000000000000000000#32 = .ok .rddwell := by decide

/-- The words with a reserved opcode of 95_test_vectors.md L2.2. -/
theorem test_decode_reserved_opcode :
    [0x00000000#32, 0x00000001, 0x80000000, 0xF0000000, 0xFFFFFFFF].map decode =
      List.replicate 5 (.error .reservedOpcode) := by rfl

/-- The words with a reserved bit of 95_test_vectors.md L2.2. -/
theorem test_decode_reserved_bits :
    [0x10000008#32, 0x10800000, 0x20800000, 0x20802181, 0x30000001, 0x40000001, 0x50000001, 0x60010000, 0x70000001,
      0x2080280B].map decode = List.replicate 10 (.error .reservedBits) := by rfl

theorem test_decodeTableWord :
    decodeTableWord 32 0x1014C002 = some (.setpix 5 3 2) ∧ decodeTableWord 32 0x10000008 = none := by decide

/-! ### One step of each command -/

/-- The block after reset with a host that holds one word. -/
def held (w : Word) : State := { State.reset with host := [.hold w] }

/-- 95_test_vectors.md L2.3: `x` and `y` are not swapped. -/
theorem test_setpix :
    (stateAfter 1 (held 0x1014C002)).cell 5 3 = 2 ∧ (stateAfter 1 (held 0x1014C002)).cell 3 5 = 0 := by decide

/-- 95_test_vectors.md L2.4: `FILLRECT 10, 5, 11, 6, 4` writes (10, 5) alone. -/
theorem test_fillrect_one_cell : (stateAfter 1 (held 0x20294B34)).fb = [(16 * 10 + 5, 4)] := by decide

/-- 95_test_vectors.md L2.4: `FILLRECT 0, 0, 40, 1, 3` raises RANGE and writes no cell; `FILLRECT 0, 0, 33, 0, 1` is empty. -/
theorem test_fillrect_range :
    (stateAfter 1 (held 0x2000280B)).cause = 2 ∧ (stateAfter 1 (held 0x2000280B)).fb = [] ∧
    (stateAfter 1 (held 0x2000280B)).writes = [(.oe, true)] ∧ (stateAfter 1 (held 0x20002101)).mode = .idle := by decide

theorem test_rdpix :
    (stateAfter 1 { held 0x407FC000 with fb := [(511, 7)] }).rspData = 7 ∧
    (stateAfter 1 (held 0x407FC000)).rspData = 0 := by decide

theorem test_wrdwell : (stateAfter 1 (held 0x6000FFFF)).dwell = 65535 := by decide

/-- 95_test_vectors.md L1.8: RDDWELL after reset responds 5. -/
theorem test_rddwell : (stateAfter 1 (held 0x70000000)).rsp = some 5 := by decide

theorem test_refresh :
    (stateAfter 1 (held 0x50000000)).busy = true ∧ (stateAfter 1 (held 0x50000000)).out.pinVector = 0x100 := by decide

/-- 95_test_vectors.md L2.2: an illegal word. -/
theorem test_illegal :
    (stateAfter 1 (held 0x10000008)).cause = 1 ∧ (stateAfter 1 (held 0x10000008)).out.pinVector = 0x100 ∧
    (stateAfter 1 (held 0x10000008)).faultOut = true := by decide

/-- The host's placed word runs next. -/
theorem test_withFetchWord : (stateAfter 1 (State.reset.withFetchWord 32 0x60000007)).dwell = 7 := by decide

/-! ### The scan -/

/-- The lines with OE high and the address of row 1, the colors of `COL_LO` in 95_test_vectors.md L2.8, and CLK, LAT, OE given. -/
def lines (clk lat oe : Bool) : Lines :=
  { rUp := true, gUp := false, bUp := false, rLo := false, gLo := true, bLo := false, clk := clk, lat := lat, oe := oe,
    a := true, b := false, c := false }

/-- A scan of row 1 over a buffer whose cells (31, 1) and (31, 9) hold 1 and 2. -/
def scan (p : Phase) (o : Lines) : State :=
  { State.reset with
    fb := [(16 * 31 + 1, 1), (16 * 31 + 9, 2)], mode := .scan, phase := p, row := 1, col := 31, out := o,
    host := [.hold 0x30000000] }

/-- 95_test_vectors.md L2.8, step 4, under the address of row 1. -/
theorem test_colLo :
    (stateAfter 1 (scan .colLo { lines false false true with gLo := false })).out.pinVector = 0x311 ∧
    (stateAfter 1 (scan .colLo (lines false false true))).writes = [(.rLo, false), (.gLo, true), (.bLo, false)] := by
  decide

/-- 95_test_vectors.md L2.8, the last `ROW_HOLD` step of row 7. -/
theorem test_rowHold :
    (stateAfter 1 { scan .rowHold (lines false false false) with row := 7, wait := 1 }).mode = .idle ∧
    (stateAfter 1 { scan .rowHold (lines false false false) with wait := 5 }).wait = 4 := by decide

/-- 41_color_codec.md R140: the example. -/
theorem test_codec : State.reset.codec 6 = ⟨false, true, true⟩ := by decide

/-! ### The assembler, the board dump and the panel -/

/-- 95_test_vectors.md L1.2: row 0 of the diagonal scenario has a 1 at column 0 and a 2 at column 31. -/
theorem test_dumpRow :
    (dumpRow { State.reset with fb := [(0, 1), (16 * 31, 2)] } 0).take 4 = ['1', ' ', '0', ' '] ∧
    (dumpRow { State.reset with fb := [(0, 1), (16 * 31, 2)] } 0).drop 60 = ['0', ' ', '2'] := by decide

theorem test_readLine :
    readLine ['S', 'E', 'T', 'P', 'I', 'X', ' ', '5', ',', ' ', '0', 'x', '3', ',', '2', ' ', ';', 'c'] =
      some (some (.command (.setpix 5 3 2))) ∧
    readLine [' ', ';', 'x'] = some none ∧ readLine ['C', 'L', 'E', 'A', 'R', ' ', '1'] = none ∧
    readLine ['R', 'D', 'P', 'I', 'X', ' ', '1', ','] = none := by decide

theorem test_expand :
    (AsmLine.fillall 0).expand = some [.hold 0x20002080] ∧ (AsmLine.fillall 8).expand = none ∧
    AsmLine.refreshloop.expand = some [.always 0x50000000] := by decide

/-- notes/assumptions/18.md: WAITIDLE actions left over are used up by one step in IDLE, a quiet driven step takes one step. -/
theorem test_leftover_actions :
    (stateAfter 1 { State.reset with host := [.waitIdle, .waitIdle] }).host = [] ∧
    (stateAfter 1 { State.reset with host := [.drive Pins.quiet, .waitIdle] }).host = [.waitIdle] := by decide

/-- A rising edge shifts for a panel that samples on it and not for the other. -/
theorem test_panel_edge :
    shiftEdgeSeen .rising (lines false false true) (lines true false true) = true ∧
    shiftEdgeSeen .falling (lines false false true) (lines true false true) = false ∧
    (lines false false false).lights 1 = true ∧ (lines false false false).lights 9 = true ∧
    (lines false false false).lights 2 = false := by decide

/-! ### Witnesses: concrete states and operands that meet the hypotheses of each statement -/

theorem stepped (s : State) : step s = .next (stateAfter 1 s) := by
  obtain ⟨t, ht⟩ := step_total s
  rw [show stateAfter 1 s = t from stateAfter_succ ht 0]
  exact ht

theorem witness_DecodedWordIsTheCommandsOnlyWord : decode 0x107FC007 = .ok (.setpix 31 15 7) := by decide

/-- A host that resets while a word is presented and a scan goes on. -/
def resetting : State :=
  { scan .clkLo (lines true false true) with
    cause := 1, dwell := 9, host := [.drive { rst := true, cmdValid := true, cmdData := 0x30000000 }] }

theorem witness_ResetStepSetsTheResetValues : resetting.pins.rst = true := by decide

theorem witness_InvariantHoldsAfterReset :
    step resetting = .next (stateAfter 1 resetting) ∧ resetting.lut = codecRom ∧ resetting.pins.rst = true :=
  ⟨stepped _, by decide⟩

theorem inv_reset : Inv State.reset := by
  constructor <;> (try simp only [State.sequencerIdle, Lines.showAddress, Lines.showUpper, Lines.showLower]) <;> decide

/-- The block in FAULT. -/
def faulted : State :=
  { State.reset with mode := .fault, cause := 2, host := [.hold 0x30000000] }

theorem inv_faulted : Inv faulted := by
  constructor <;> (try simp only [State.sequencerIdle, Lines.showAddress, Lines.showUpper, Lines.showLower]) <;> decide

theorem inv_clkHi : Inv (scan .clkHi (lines false false true)) := by
  constructor <;> (try simp only [State.sequencerIdle, Lines.showAddress, Lines.showUpper, Lines.showLower]) <;> decide

theorem inv_latHi : Inv (scan .latHi (lines false false true)) := by
  constructor <;> (try simp only [State.sequencerIdle, Lines.showAddress, Lines.showUpper, Lines.showLower]) <;> decide

/-- A ROW_HOLD state of row `r` with `w` units left; the lines show the row. -/
def holding (r : BitVec 3) (w : BitVec 16) : State :=
  { scan .rowHold { lines false false false with
      a := r.getLsbD 0, b := r.getLsbD 1, c := r.getLsbD 2, rUp := false, gLo := false } with
    fb := [], row := r, wait := w }

theorem inv_holding_first : Inv (holding 1 5) := by
  constructor <;> (try simp only [State.sequencerIdle, Lines.showAddress, Lines.showUpper, Lines.showLower]) <;> decide

theorem inv_holding_last_row : Inv (holding 7 1) := by
  constructor <;> (try simp only [State.sequencerIdle, Lines.showAddress, Lines.showUpper, Lines.showLower]) <;> decide

theorem inv_holding_next_row : Inv (holding 6 1) := by
  constructor <;> (try simp only [State.sequencerIdle, Lines.showAddress, Lines.showUpper, Lines.showLower]) <;> decide

theorem witness_EveryStepKeepsTheInvariant :
    Inv (scan .clkHi (lines false false true)) ∧
    step (scan .clkHi (lines false false true)) = .next (stateAfter 1 (scan .clkHi (lines false false true))) :=
  ⟨inv_clkHi, stepped _⟩

theorem witness_EveryStepAnswersAndMovesLegally :
    resetting.pins.rst = true ∧ (faulted.pins.rst = false ∧ faulted.mode = .fault) ∧
    ((holding 7 1).pins.rst = false ∧ (holding 7 1).mode = .scan) ∧
    (State.reset.pins.rst = false ∧ State.reset.mode = .idle ∧ State.reset.accepts = false) ∧
    ((held 0x50000000).accepts = true ∧ (held 0x00000000).accepts = true) := by decide

theorem witness_NoCommandIsAcceptedOutsideIdle :
    faulted.mode ≠ .idle ∧ (holding 1 5).mode ≠ .idle ∧
    ({ holding 1 5 with host := [] } : State).pins.rst = ({ holding 1 5 with host := [.hold 0x30000000] } : State).pins.rst := by
  decide

theorem witness_HeldWordStaysUntilAccepted :
    step (held 7) = .next (stateAfter 1 (held 7)) ∧ step faulted = .next (stateAfter 1 faulted) ∧
    ((held 7).host = .hold 7 :: [] ∧ (held 7).mode = .idle) ∧
    faulted.host = .hold 0x30000000 :: [] ∧ faulted.mode ≠ .idle := ⟨stepped _, stepped _, by decide⟩

theorem witness_WaitAndLoopActAtThePort :
    (({ faulted with host := [.waitIdle] } : State).host = .waitIdle :: [] ∧ faulted.mode ≠ .idle) ∧
    (({ State.reset with host := [.waitIdle, .hold 7] } : State).host = .waitIdle :: .hold 7 :: [] ∧
      State.reset.mode = .idle) ∧
    ({ State.reset with host := [.always 7] } : State).host = .always 7 :: [] := by decide

theorem witness_StepRunsTheDecodedCommand :
    (held 0x70000000).accepts = true ∧ decode (held 0x70000000).pins.cmdData = .ok .rddwell := by decide

theorem witness_PlacedWordRunsNext : decodeTableWord 32 0x1014C002 = some (.setpix 5 3 2) := by decide

theorem witness_IllegalWordFaults :
    (held 0xFFFFFFFF).accepts = true ∧ decode (held 0xFFFFFFFF).pins.cmdData = .error .reservedOpcode ∧
    (held 0x2080280B).accepts = true ∧ decode (held 0x2080280B).pins.cmdData = .error .reservedBits := by decide

theorem witness_FaultModeDoesNothing :
    Inv faulted ∧ faulted.mode = .fault ∧ faulted.pins.rst = false ∧ faulted.host.head? = some (.hold 0x30000000) :=
  ⟨inv_faulted, by decide⟩

theorem witness_OnlyResetLeavesFault :
    step faulted = .next (stateAfter 1 faulted) ∧ faulted.mode = .fault ∧ faulted.pins.rst = false ∧
    ({ faulted with host := resetting.host } : State).pins.rst = true := ⟨stepped _, by decide⟩

theorem witness_SetpixWritesExactlyOneCell : (scan .blankOn (lines false false true)).fb.wf = true := by decide

theorem witness_FillrectFillsExactlyTheRectangle :
    (scan .blankOn (lines false false true)).fb.wf = true ∧
    ((32#6).toNat ≤ 32 ∧ (16#5).toNat ≤ 16) ∧ ((33#6).toNat ≤ (0#5).toNat ∨ (0#5).toNat ≤ (0#4).toNat) := by decide

theorem witness_FillrectBeyondTheGridRaisesRange :
    (((0#5).toNat < (33#6).toNat ∧ (0#4).toNat < (1#5).toNat) ∧ (32 < (33#6).toNat ∨ 16 < (1#5).toNat)) ∧
    (((31#5).toNat < (32#6).toNat ∧ (15#4).toNat < (17#5).toNat) ∧ (32 < (32#6).toNat ∨ 16 < (17#5).toNat)) ∧
    ¬(((0#5).toNat < (32#6).toNat ∧ (0#4).toNat < (16#5).toNat) ∧ (32 < (32#6).toNat ∨ 16 < (16#5).toNat)) := by decide

theorem witness_ClearZeroesEveryCell : (scan .blankOn (lines false false true)).fb.wf = true := by decide

theorem witness_RefreshStartsTheScan : exec .refresh State.reset = .next State.reset.startScan := rfl

theorem witness_WritesAreIdempotent :
    exec (.fillrect 31 15 32 16 7) State.reset = .next { State.reset with fb := [(511, 7)] } ∧
    exec (.wrdwell 0) State.reset = .next { State.reset with dwell := 0 } ∧
    State.reset.fb.wf = true ∧ inGrid (.fillrect 31 15 32 16 7) = true := ⟨rfl, rfl, by decide⟩

theorem witness_CodecGivesTheBitsOfTheCode : State.reset.lut = codecRom := by decide

theorem witness_LinearIndexNamesEachCellOnce : cellIndex 0 0 = 0 ∧ cellIndex 31 15 = 511 := by decide

theorem witness_OnlyWriteCommandsAndResetChangeCells :
    step (held 0x1014C002) = .next (stateAfter 1 (held 0x1014C002)) ∧
    (stateAfter 1 (held 0x1014C002)).cell 5 3 ≠ (held 0x1014C002).cell 5 3 := ⟨stepped _, by decide⟩

theorem witness_OnlyWrdwellAndResetChangeDwell :
    step (held 0x60000000) = .next (stateAfter 1 (held 0x60000000)) ∧
    (stateAfter 1 (held 0x60000000)).dwell ≠ (held 0x60000000).dwell := ⟨stepped _, by decide⟩

theorem witness_ResponsesComeOnlyFromReads :
    step (held 0x70000000) = .next (stateAfter 1 (held 0x70000000)) ∧
    (stateAfter 1 (held 0x70000000)).rsp = some 5 ∧ (stateAfter 1 (held 0x30000001)).rspValid = false :=
  ⟨stepped _, by decide⟩

theorem witness_LinesKeepTheirLevelUntilWritten :
    step (holding 1 5) = .next (stateAfter 1 (holding 1 5)) ∧ step (held 0x70000000) = .next (stateAfter 1 (held 0x70000000)) ∧
    ((holding 1 5).pins.rst = false ∧ (stateAfter 1 (holding 1 5)).writes = []) ∧
    ((held 0x70000000).pins.rst = false ∧ (held 0x70000000).mode = .idle ∧
      (stateAfter 1 (held 0x70000000)).mode ≠ .fault) := ⟨stepped _, stepped _, by decide⟩

theorem witness_WriteListsSayWhatTheLinesShow :
    step (held 0x00000000) = .next (stateAfter 1 (held 0x00000000)) ∧
    (.oe, true) ∈ (stateAfter 1 (held 0x00000000)).writes := ⟨stepped _, by decide⟩

/-- The address lines before SET_ADDR of row 1 show row 0. -/
theorem inv_setAddr : Inv (scan .setAddr { lines false false true with a := false }) := by
  constructor <;> (try simp only [State.sequencerIdle, Lines.showAddress, Lines.showUpper, Lines.showLower]) <;> decide

theorem witness_LinesChangeOnlyWhileBlanked :
    Inv (scan .setAddr { lines false false true with a := false }) ∧
    step (scan .setAddr { lines false false true with a := false }) =
      .next (stateAfter 1 (scan .setAddr { lines false false true with a := false })) ∧
    (scan .setAddr { lines false false true with a := false }).pins.rst = false ∧ Line.a ≠ .oe ∧
    (stateAfter 1 (scan .setAddr { lines false false true with a := false })).out.level .a ≠
      (scan .setAddr { lines false false true with a := false }).out.level .a := ⟨inv_setAddr, stepped _, by decide⟩

theorem witness_ClockAndLatchRiseOnStableData :
    (Inv (scan .clkHi (lines false false true)) ∧ Inv (scan .latHi (lines false false true))) ∧
    step (scan .clkHi (lines false false true)) = .next (stateAfter 1 (scan .clkHi (lines false false true))) ∧
    step (scan .latHi (lines false false true)) = .next (stateAfter 1 (scan .latHi (lines false false true))) ∧
    (scan .clkHi (lines false false true)).pins.rst = false ∧ (scan .latHi (lines false false true)).pins.rst = false ∧
    (stateAfter 1 (scan .clkHi (lines false false true))).out.clk = true ∧
    (stateAfter 1 (scan .latHi (lines false false true))).out.lat = true :=
  ⟨⟨inv_clkHi, inv_latHi⟩, stepped _, stepped _, by decide⟩

/-- The micro-step statements ask for the mode, the phase, no reset and the ROM. -/
theorem witness_micro_steps :
    ∀ p ∈ [Phase.blankOn, .setAddr, .colUp, .colLo, .clkHi, .clkLo, .latHi, .latLo, .blankOff, .rowHold],
      (scan p (lines false false true)).mode = .scan ∧ (scan p (lines false false true)).phase = p ∧
      (scan p (lines false false true)).pins.rst = false ∧ (scan p (lines false false true)).lut = codecRom := by decide

theorem witness_ColUpDrivesTheUpperPixel :
    (1 : Color) = (scan .colUp (lines false false true)).fb.read
      (16 * (scan .colUp (lines false false true)).col.toNat + (scan .colUp (lines false false true)).row.toNat) := by decide

theorem witness_ColLoDrivesTheLowerPixel :
    (2 : Color) = (scan .colLo (lines false false true)).fb.read
      (16 * (scan .colLo (lines false false true)).col.toNat + ((scan .colLo (lines false false true)).row.toNat + 8)) := by
  decide

theorem witness_ClockPulseAdvancesTheColumn :
    (scan .clkLo (lines true false true)).col = 31 ∧ ({ scan .clkLo (lines true false true) with col := 30 } : State).col ≠ 31 := by
  decide

theorem witness_BlankOffLightsTheRow :
    (scan .blankOff (lines false false true)).dwell ≠ 0 ∧
    (({ scan .blankOff (lines false false true) with dwell := 0, row := 7 } : State).dwell = 0 ∧
      ({ scan .blankOff (lines false false true) with dwell := 0, row := 7 } : State).row = 7) ∧
    ({ scan .blankOff (lines false false true) with dwell := 0, row := 6 } : State).row ≠ 7 := by decide

theorem witness_RowHoldCountsDown :
    (Inv (holding 1 5) ∧ Inv (holding 7 1) ∧ Inv (holding 6 1)) ∧
    ((holding 1 5).mode = .scan ∧ (holding 1 5).phase = .rowHold ∧ (holding 1 5).pins.rst = false) ∧
    (holding 1 5).wait ≠ 1 ∧ ((holding 7 1).wait = 1 ∧ (holding 7 1).row = 7) ∧
    ((holding 6 1).wait = 1 ∧ (holding 6 1).row ≠ 7) :=
  ⟨⟨inv_holding_first, inv_holding_last_row, inv_holding_next_row⟩, by decide⟩

/-- The block in IDLE after a refresh of a buffer with one cell, the host holding a REFRESH and a CLEAR. -/
def refreshing (o : Lines) : State :=
  { State.reset with fb := [(511, 4)], out := o, host := [.hold 0x50000000, .hold 0x30000000] }

theorem inv_refreshing : Inv (refreshing Lines.reset) := by
  constructor <;> (try simp only [State.sequencerIdle, Lines.showAddress, Lines.showUpper, Lines.showLower]) <;> decide

theorem inv_refreshing_again : Inv (refreshing (lines false false false)) := by
  constructor <;> (try simp only [State.sequencerIdle, Lines.showAddress, Lines.showUpper, Lines.showLower]) <;> decide

/-- The hypotheses of the statements about a whole refresh. -/
theorem witness_refresh_statements :
    Inv (refreshing Lines.reset) ∧ (refreshing Lines.reset).lut = codecRom ∧ (refreshing Lines.reset).accepts = true ∧
    decode (refreshing Lines.reset).pins.cmdData = .ok .refresh ∧ (refreshing Lines.reset).noReset = true ∧ 7 < 8 :=
  ⟨inv_refreshing, by decide⟩

theorem witness_RefreshCarriesNothingOver :
    (Inv (refreshing Lines.reset) ∧ Inv (refreshing (lines false false false))) ∧
    (∀ x y, (refreshing Lines.reset).cell x y = (refreshing (lines false false false)).cell x y) ∧
    (refreshing Lines.reset).dwell = (refreshing (lines false false false)).dwell ∧
    ((refreshing Lines.reset).accepts = true ∧ decode (refreshing Lines.reset).pins.cmdData = .ok .refresh ∧
      (refreshing Lines.reset).noReset = true) ∧
    (refreshing (lines false false false)).accepts = true ∧
    decode (refreshing (lines false false false)).pins.cmdData = .ok .refresh ∧
    (refreshing (lines false false false)).noReset = true :=
  ⟨⟨inv_refreshing, inv_refreshing_again⟩, fun _ _ => rfl, by decide⟩

theorem witness_SnapshotAnswersTheBufferInRowMajorOrder :
    ({ State.reset with host := holdAll snapshotCommands ++ [.waitIdle] } : State).mode = .idle ∧
    ({ State.reset with host := holdAll snapshotCommands ++ [.waitIdle] } : State).host =
      holdAll snapshotCommands ++ [.waitIdle] := ⟨rfl, rfl⟩

/-- A program of every command, none out of range. -/
def program : List Instr :=
  [.setpix 5 3 2, .fillrect 31 15 32 16 7, .wrdwell 0, .refresh, .rdpix 5 3, .rddwell, .clear]

theorem witness_ProgramsMeetTheReference :
    (∀ i ∈ program, inGrid i = true) ∧
    stateAfter (programSteps [] program) { State.reset with host := holdAll program } =
      stateAfter (programSteps [] program) { State.reset with host := holdAll program } := ⟨by decide, rfl⟩

theorem witness_FaultsArePreciseInAProgram :
    (∀ j ∈ program, inGrid j = true) ∧ inGrid (.fillrect 0 0 33 1 3) = false ∧
    programSteps [] program = 1071 := by decide

end Sys2Proof.Tests
end

section
/-! The invariant of the block (10_state.md R33, R38; 42_scan_engine.md R164, R172 to R174) and every step keeps it. Outside SCAN the
invariant speaks of the idle sequencer and three lines; in SCAN it speaks of the phase, and each micro-step makes true what the next
phase needs of the lines it drives. -/

namespace Sys2Proof.Machine

/-- What the invariant says outside SCAN. -/
theorem inv_iff_of_not_scan {s : State} (hm : s.mode ≠ .scan) :
    Inv s ↔ s.fb.wf = true ∧ s.lut = codecRom ∧ (s.cause ≠ 0 ↔ s.mode = .fault) ∧ s.cause ≠ 3 ∧ s.sequencerIdle ∧
      s.out.clk = false ∧ s.out.lat = false ∧ (s.mode = .fault → s.out.oe = true) := by
  constructor
  · intro h
    have hclk : ¬s.out.clk = true := fun hc => hm (h.clock.1 hc).1
    have hlat : ¬s.out.lat = true := fun hl => hm (h.latch.1 hl).1
    exact ⟨h.memory, h.rom, h.causeOfFault, h.causeLegal, h.sequencer hm, by simpa using hclk, by simpa using hlat,
      h.faultBlanked⟩
  · rintro ⟨hfb, hrom, hfault, hcause, hseq, hclk, hlat, hoe⟩
    exact
      { memory := hfb, rom := hrom, causeOfFault := hfault, causeLegal := hcause, faultBlanked := hoe
        sequencer := fun _ => hseq
        waitElsewhere := fun _ => hseq.2.2.2
        clock := by simp [hclk, hm]
        latch := by simp [hlat, hm]
        waitInHold := fun h => absurd h hm
        columnDone := fun h => absurd h hm
        blanked := fun h => absurd h hm
        lit := fun h => absurd h hm
        address := fun h => absurd h hm
        upper := fun h => absurd h hm
        lower := fun h => absurd h hm }

/-- The clauses of the invariant about the counters and the lines in SCAN, phase by phase. -/
def State.scanFacts (s : State) : Prop :=
  (s.phase = .rowHold → s.wait ≠ 0 ∧ s.wait ≤ s.dwell) ∧
  (s.phase ≠ .rowHold → s.wait = 0) ∧
  (s.phase.afterColumns = true → s.col = 31) ∧
  (s.out.clk = true ↔ s.phase = .clkLo) ∧
  (s.out.lat = true ↔ s.phase = .latLo) ∧
  (s.phase.blanked = true → s.out.oe = true) ∧
  (s.phase = .rowHold → s.out.oe = false) ∧
  (s.phase.addressed = true → s.out.showAddress s.row) ∧
  (s.phase.upperShown = true → s.out.showUpper (codecBits (s.cell s.col (upperRow s.row)))) ∧
  (s.phase.lowerShown = true → s.out.showLower (codecBits (s.cell s.col (lowerRow s.row))))

/-- What the invariant says in SCAN. -/
theorem inv_iff_of_scan {s : State} (hm : s.mode = .scan) :
    Inv s ↔ s.fb.wf = true ∧ s.lut = codecRom ∧ s.cause = 0 ∧ s.scanFacts := by
  constructor
  · intro h
    exact ⟨h.memory, h.rom, by simpa [hm] using h.causeOfFault, h.waitInHold hm, h.waitElsewhere, h.columnDone hm,
      by simpa [hm] using h.clock, by simpa [hm] using h.latch, h.blanked hm, h.lit hm, h.address hm, h.upper hm, h.lower hm⟩
  · rintro ⟨hfb, hrom, hcause, hhold, hwait, hcol, hclk, hlat, hblank, hlit, haddr, hup, hlo⟩
    exact
      { memory := hfb, rom := hrom, waitElsewhere := hwait
        causeOfFault := by simp [hcause, hm]
        causeLegal := by simp [hcause]
        sequencer := fun h => absurd hm h
        faultBlanked := by simp [hm]
        clock := by simpa [hm] using hclk
        latch := by simpa [hm] using hlat
        waitInHold := fun _ => hhold
        columnDone := fun _ => hcol
        blanked := fun _ => hblank
        lit := fun _ => hlit
        address := fun _ => haddr
        upper := fun _ => hup
        lower := fun _ => hlo }

section
variable (p : Phase)

@[simp] theorem Phase.afterColumns_iff : p.afterColumns = true ↔ p = .latHi ∨ p = .latLo ∨ p = .blankOff ∨ p = .rowHold := by
  cases p <;> decide

@[simp] theorem Phase.blanked_iff : p.blanked = true ↔ p ≠ .blankOn ∧ p ≠ .rowHold := by
  cases p <;> decide

@[simp] theorem Phase.addressed_iff : p.addressed = true ↔ p ≠ .blankOn ∧ p ≠ .setAddr := by
  cases p <;> decide

@[simp] theorem Phase.upperShown_iff : p.upperShown = true ↔ p.addressed = true ∧ p ≠ .colUp := by
  cases p <;> decide

@[simp] theorem Phase.lowerShown_iff : p.lowerShown = true ↔ p.upperShown = true ∧ p ≠ .colLo := by
  cases p <;> decide

end

section
variable {s : State}

theorem scanFacts_microBlankOn (h : s.scanFacts) (hp : s.phase = .blankOn) : (microBlankOn s).scanFacts := by
  unfold State.scanFacts at h
  simp [State.scanFacts, microBlankOn, Lines.set, hp, h]

theorem scanFacts_microSetAddr (h : s.scanFacts) (hp : s.phase = .setAddr) : (microSetAddr s).scanFacts := by
  unfold State.scanFacts at h
  simp [State.scanFacts, microSetAddr, Lines.set, Lines.showAddress, hp, h]

theorem scanFacts_microColUp (h : s.scanFacts) (hl : s.lut = codecRom) (hp : s.phase = .colUp) :
    (microColUp s).scanFacts := by
  simp only [State.scanFacts, Lines.showAddress] at h
  simp [State.scanFacts, microColUp, Lines.set, Lines.showAddress, Lines.showUpper, State.cell, State.codec_of_rom hl, hp, h]

theorem scanFacts_microColLo (h : s.scanFacts) (hl : s.lut = codecRom) (hp : s.phase = .colLo) :
    (microColLo s).scanFacts := by
  simp only [State.scanFacts, Lines.showAddress, Lines.showUpper, State.cell] at h
  simp [State.scanFacts, microColLo, Lines.set, Lines.showAddress, Lines.showUpper, Lines.showLower, State.cell,
    State.codec_of_rom hl, hp, h]

theorem scanFacts_microClkHi (h : s.scanFacts) (hp : s.phase = .clkHi) : (microClkHi s).scanFacts := by
  simp only [State.scanFacts, Lines.showAddress, Lines.showUpper, Lines.showLower, State.cell] at h
  simp [State.scanFacts, microClkHi, Lines.set, Lines.showAddress, Lines.showUpper, Lines.showLower, State.cell, hp, h]

theorem scanFacts_microClkLo (h : s.scanFacts) (hp : s.phase = .clkLo) : (microClkLo s).scanFacts := by
  simp only [State.scanFacts, Lines.showAddress, Lines.showUpper, Lines.showLower, State.cell] at h
  unfold microClkLo
  split
  · next hc =>
    simp [State.scanFacts, Lines.set, Lines.showAddress, Lines.showUpper, Lines.showLower, State.cell, hp, hc, h]
  · simp [State.scanFacts, Lines.set, Lines.showAddress, hp, h]

theorem scanFacts_microLatHi (h : s.scanFacts) (hp : s.phase = .latHi) : (microLatHi s).scanFacts := by
  simp only [State.scanFacts, Lines.showAddress, Lines.showUpper, Lines.showLower, State.cell] at h
  simp [State.scanFacts, microLatHi, Lines.set, Lines.showAddress, Lines.showUpper, Lines.showLower, State.cell, hp, h]

theorem scanFacts_microLatLo (h : s.scanFacts) (hp : s.phase = .latLo) : (microLatLo s).scanFacts := by
  simp only [State.scanFacts, Lines.showAddress, Lines.showUpper, Lines.showLower, State.cell] at h
  simp [State.scanFacts, microLatLo, Lines.set, Lines.showAddress, Lines.showUpper, Lines.showLower, State.cell, hp, h]

end

/-- A scan that goes on with the facts of its phase, or one that has ended in IDLE (42_scan_engine.md R165). -/
def State.scanResult (s : State) : Prop :=
  (s.mode = .scan ∧ s.scanFacts) ∨ (s.mode = .idle ∧ s.sequencerIdle ∧ s.out.clk = false ∧ s.out.lat = false)

section
variable {s : State}

/-- The end of a row, once the dwell units are spent and CLK and LAT are low. -/
theorem scanResult_endOfRow (hm : s.mode = .scan) (hwait : s.wait = 0) (hclk : s.out.clk = false)
    (hlat : s.out.lat = false) : s.endOfRow.scanResult := by
  by_cases hr : s.row = 7
  · rw [State.endOfRow_last hr]
    exact .inr ⟨rfl, ⟨rfl, rfl, rfl, rfl⟩, hclk, hlat⟩
  · rw [State.endOfRow_next hr]
    exact .inl ⟨hm, by simp [State.scanFacts, hwait, hclk, hlat]⟩

theorem scanResult_microBlankOff (h : s.scanFacts) (hm : s.mode = .scan) (hp : s.phase = .blankOff) :
    (microBlankOff s).scanResult := by
  obtain ⟨-, hwait, hcol, hclk, hlat, -, -, haddr, hup, hlo⟩ := h
  have hclk : s.out.clk = false := by simpa [hp] using hclk
  have hlat : s.out.lat = false := by simpa [hp] using hlat
  unfold microBlankOff
  split
  · exact scanResult_endOfRow hm (hwait (by simp [hp])) hclk hlat
  · next hd =>
    exact .inl ⟨hm, fun _ => ⟨hd, BitVec.le_refl _⟩, fun hn => absurd rfl hn, fun _ => hcol (by simp [hp]),
      by simpa [Lines.set] using hclk, by simpa [Lines.set] using hlat, by simp, fun _ => rfl,
      fun _ => haddr (by simp [hp]), fun _ => hup (by simp [hp]), fun _ => hlo (by simp [hp])⟩

theorem scanResult_microRowHold (h : s.scanFacts) (hm : s.mode = .scan) (hp : s.phase = .rowHold) :
    (microRowHold s).scanResult := by
  obtain ⟨hhold, -, hcol, hclk, hlat, hlines⟩ := h
  obtain ⟨hwait, hle⟩ := hhold hp
  unfold microRowHold
  dsimp only
  split
  · next hw => exact scanResult_endOfRow hm hw (by simpa [hp] using hclk) (by simpa [hp] using hlat)
  · next hw =>
    exact .inl ⟨hm, fun _ => ⟨hw, by bv_omega⟩, fun hn => absurd hp hn, hcol, hclk, hlat, hlines⟩

/-- Every micro-step passes the facts of its phase on to the next. -/
theorem scanResult_microStep (h : s.scanFacts) (hl : s.lut = codecRom) (hm : s.mode = .scan) :
    (microStep s).scanResult := by
  cases hp : s.phase with
  | blankOn => rw [microStep_blankOn hp]; exact .inl ⟨hm, scanFacts_microBlankOn h hp⟩
  | setAddr => rw [microStep_setAddr hp]; exact .inl ⟨hm, scanFacts_microSetAddr h hp⟩
  | colUp => rw [microStep_colUp hp]; exact .inl ⟨hm, scanFacts_microColUp h hl hp⟩
  | colLo => rw [microStep_colLo hp]; exact .inl ⟨hm, scanFacts_microColLo h hl hp⟩
  | clkHi => rw [microStep_clkHi hp]; exact .inl ⟨hm, scanFacts_microClkHi h hp⟩
  | clkLo =>
    rw [microStep_clkLo hp]
    exact .inl ⟨by unfold microClkLo; split <;> exact hm, scanFacts_microClkLo h hp⟩
  | latHi => rw [microStep_latHi hp]; exact .inl ⟨hm, scanFacts_microLatHi h hp⟩
  | latLo => rw [microStep_latLo hp]; exact .inl ⟨hm, scanFacts_microLatLo h hp⟩
  | blankOff => rw [microStep_blankOff hp]; exact scanResult_microBlankOff h hm hp
  | rowHold => rw [microStep_rowHold hp]; exact scanResult_microRowHold h hm hp

end

section
variable {s : State}

/-- Every micro-step keeps the invariant. -/
theorem inv_microStep (h : Inv s) (hm : s.mode = .scan) : Inv (microStep s) := by
  obtain ⟨hfb, hl, hcause, hs⟩ := (inv_iff_of_scan hm).1 h
  obtain ⟨hfb', hl', -, hcause', -, -⟩ := microStep_frame s
  rw [← hfb'] at hfb
  rw [hcause] at hcause'
  rcases scanResult_microStep hs hl hm with ⟨hscan, hs'⟩ | ⟨hidle, hseq, hclk, hlat⟩
  · exact (inv_iff_of_scan hscan).2 ⟨hfb, hl'.trans hl, hcause', hs'⟩
  · exact (inv_iff_of_not_scan (by simp [hidle])).2
      ⟨hfb, hl'.trans hl, by simp [hcause', hidle], by simp [hcause'], hseq, hclk, hlat, by simp [hidle]⟩

/-- The invariant does not speak of the host and the output ports. -/
theorem inv_beginStep (h : Inv s) : Inv s.beginStep := by
  cases h
  constructor <;> assumption

/-- A reset sets everything the invariant speaks of but the ROM. -/
theorem inv_resetBlock (hl : s.lut = codecRom) : Inv s.resetBlock :=
  (inv_iff_of_not_scan (by simp)).2
    ⟨rfl, hl, by simp, by simp, ⟨rfl, rfl, rfl, rfl⟩, rfl, rfl, by simp⟩

/-- A fault taken outside SCAN leaves the sequencer idle and blanks the panel (60_exceptions.md R203). -/
theorem inv_raiseFault (h : Inv s) (hm : s.mode ≠ .scan) (c : Cause) : Inv (s.raiseFault c) := by
  obtain ⟨hfb, hl, -, -, hseq, hclk, hlat, -⟩ := (inv_iff_of_not_scan hm).1 h
  have hcode : c.code ≠ 0 ∧ c.code ≠ 3 := by cases c <;> decide
  exact (inv_iff_of_not_scan (by simp)).2 ⟨hfb, hl, by simpa using hcode.1, hcode.2, hseq, hclk, hlat, fun _ => rfl⟩

/-- In IDLE the invariant leaves DWELL and the response free, and asks of the frame buffer only its canonical form. -/
theorem inv_idleWrite (h : Inv s) (hm : s.mode = .idle) {fb : Memory} (hfb : fb.wf = true) (d : BitVec 16)
    (r : Option Word) : Inv { s with fb := fb, dwell := d, rsp := r } := by
  have hns : s.mode ≠ .scan := by simp [hm]
  exact (inv_iff_of_not_scan (s := { s with fb := fb, dwell := d, rsp := r }) hns).2
    ⟨hfb, ((inv_iff_of_not_scan hns).1 h).2⟩

/-- A refresh starts with CLK and LAT low, as they are in IDLE (42_scan_engine.md R150). -/
theorem inv_startScan (h : Inv s) (hm : s.mode = .idle) : Inv s.startScan := by
  obtain ⟨hfb, hl, hfault, -, -, hclk, hlat, -⟩ := (inv_iff_of_not_scan (by simp [hm])).1 h
  exact (inv_iff_of_scan rfl).2 ⟨hfb, hl, by simpa [hm] using hfault, by simp [State.scanFacts, hclk, hlat]⟩

/-- A command executed in IDLE keeps the invariant. -/
theorem inv_exec {t : State} {i : Instr} (h : Inv s) (hm : s.mode = .idle) (he : exec i s = .next t) : Inv t := by
  rcases exec_cases he with ⟨fb, rfl, hwf, -⟩ | ⟨n, -, rfl⟩ | ⟨x, y, -, rfl⟩ | ⟨-, rfl⟩ | ⟨-, rfl⟩ |
    ⟨x1, y1, x2, y2, k, -, -, rfl⟩
  · exact inv_idleWrite h hm (hwf h.memory) s.dwell s.rsp
  · exact inv_idleWrite h hm h.memory n s.rsp
  · exact inv_idleWrite h hm h.memory s.dwell (some (zext32 (s.cell x y)))
  · exact inv_idleWrite h hm h.memory s.dwell (some (zext32 s.dwell))
  · exact inv_startScan h hm
  · exact inv_raiseFault h (by simp [hm]) .range

end

/-- Settles O8: outside SCAN the cases of a step keep the idle invariant, and in SCAN each micro-step passes the facts of its phase
on to the next. -/
theorem everyStepKeepsTheInvariant : Obligations.EveryStepKeepsTheInvariant := by
  intro s t h ht
  have hb := inv_beginStep h
  rcases step_cases ht with ⟨-, rfl⟩ | ⟨-, hm, -, i, -, he⟩ | ⟨-, hm, -, e, -, rfl⟩ | ⟨-, -, -, rfl⟩ | ⟨-, hm, rfl⟩ |
    ⟨-, -, rfl⟩
  · exact inv_resetBlock hb.rom
  · exact inv_exec hb hm he
  · exact inv_raiseFault hb (by simp [hm]) .illegal
  · exact hb
  · exact inv_microStep hb hm
  · exact hb

end Sys2Proof.Machine
end

section
/-! How a step moves the mode (10_state.md R31) and who writes cells and DWELL (10_state.md R22, R28, R30). -/

namespace Sys2Proof.Machine

/-- A command executed in IDLE leads to SCAN exactly if it is REFRESH (42_scan_engine.md R150). -/
theorem exec_mode_scan_iff {i : Instr} {s t : State} (hm : s.mode = .idle) (h : exec i s = .next t) :
    t.mode = .scan ↔ i = .refresh := by
  rcases exec_cases h with ⟨fb, rfl, -, hi⟩ | ⟨n, rfl, rfl⟩ | ⟨x, y, rfl, rfl⟩ | ⟨rfl, rfl⟩ | ⟨rfl, rfl⟩ |
    ⟨x1, y1, x2, y2, k, rfl, -, rfl⟩
  · rcases hi with ⟨x, y, k, rfl⟩ | ⟨x1, y1, x2, y2, k, rfl⟩ | rfl <;> simp [hm]
  all_goals simp [hm]

/-- Settles O9: every step answers, and each of its cases moves the mode as the spec allows. -/
theorem everyStepAnswersAndMovesLegally : Obligations.EveryStepAnswersAndMovesLegally := by
  intro s
  obtain ⟨t, ht⟩ := step_total s
  refine ⟨t, ht, ?_⟩
  rcases step_cases ht with ⟨hr, rfl⟩ | ⟨hr, hm, hv, i, hd, he⟩ | ⟨hr, hm, hv, e, hd, rfl⟩ | ⟨hr, hm, hv, rfl⟩ |
    ⟨hr, hm, rfl⟩ | ⟨hr, hm, rfl⟩
  · simp [hr, State.accepts]
  · have ha := State.accepts_iff.2 ⟨hm, hr, hv⟩
    have hscan : t.mode = .scan ↔ i = .refresh := exec_mode_scan_iff (s := s.beginStep) hm he
    simp [hr, hm, ha, hd, hscan]
  · have ha := State.accepts_iff.2 ⟨hm, hr, hv⟩
    simp [hr, hm, ha, hd]
  · simp [hr, hm, hv, State.accepts]
  · rcases microStep_mode s.beginStep with h | h <;> simp [hr, hm, h, State.accepts, State.cmdReady]
  · simp [hr, hm, State.accepts, State.cmdReady]

/-- Settles O29: of the commands only SETPIX, FILLRECT and CLEAR leave another frame buffer, and no micro-step does. -/
theorem onlyWriteCommandsAndResetChangeCells : Obligations.OnlyWriteCommandsAndResetChangeCells := by
  rintro s t ht ⟨x, y, hne⟩
  have hfb : t.fb ≠ s.fb := fun h => hne (State.cell_congr h x y)
  rcases step_cases ht with ⟨hr, rfl⟩ | ⟨hr, hm, hv, i, hd, he⟩ | ⟨-, -, -, e, -, rfl⟩ | ⟨-, -, -, rfl⟩ | ⟨-, -, rfl⟩ |
    ⟨-, -, rfl⟩
  · exact .inl hr
  · refine .inr ⟨State.accepts_iff.2 ⟨hm, hr, hv⟩, i, hd, ?_⟩
    rcases exec_cases he with ⟨fb, -, -, hi⟩ | ⟨n, -, rfl⟩ | ⟨x, y, -, rfl⟩ | ⟨-, rfl⟩ | ⟨-, rfl⟩ |
      ⟨x1, y1, x2, y2, k, -, -, rfl⟩
    · exact hi
    all_goals exact absurd rfl hfb
  · exact absurd rfl hfb
  · exact absurd rfl hfb
  · exact absurd (microStep_frame s.beginStep).1 hfb
  · exact absurd rfl hfb

/-- Settles O30: of the commands only WRDWELL leaves another DWELL, and no micro-step does. -/
theorem onlyWrdwellAndResetChangeDwell : Obligations.OnlyWrdwellAndResetChangeDwell := by
  intro s t ht hne
  rcases step_cases ht with ⟨hr, rfl⟩ | ⟨hr, hm, hv, i, hd, he⟩ | ⟨-, -, -, e, -, rfl⟩ | ⟨-, -, -, rfl⟩ | ⟨-, -, rfl⟩ |
    ⟨-, -, rfl⟩
  · exact .inl hr
  · refine .inr ⟨hm, State.accepts_iff.2 ⟨hm, hr, hv⟩, hd.trans ?_⟩
    rcases exec_cases he with ⟨fb, rfl, -, -⟩ | ⟨n, rfl, rfl⟩ | ⟨x, y, -, rfl⟩ | ⟨-, rfl⟩ | ⟨-, rfl⟩ |
      ⟨x1, y1, x2, y2, k, -, -, rfl⟩
    case inr.inl => rfl
    all_goals exact absurd rfl hne
  · exact absurd rfl hne
  · exact absurd rfl hne
  · obtain ⟨-, -, hdwell, -⟩ := microStep_frame s.beginStep
    exact absurd hdwell hne
  · exact absurd rfl hne

end Sys2Proof.Machine
end

section
/-! The lines after a step are the lines before it with the step's write list driven onto them (10_state.md R43, R44). -/

namespace Sys2Proof.Machine

/-- The output register after the writes of a list, the first write first (10_state.md R44). -/
def Lines.drive (o : Lines) (ws : WriteList) : Lines := ws.foldl (fun o p => o.set p.1 p.2) o

@[simp] theorem Lines.drive_nil (o : Lines) : o.drive [] = o := rfl

@[simp] theorem Lines.drive_cons (o : Lines) (l : Line) (v : Bool) (ws : WriteList) :
    o.drive ((l, v) :: ws) = (o.set l v).drive ws := rfl

/-- A line that is not written keeps its level. -/
theorem Lines.level_drive_of_unwritten {l : Line} {ws : WriteList} (o : Lines) (h : ∀ v, (l, v) ∉ ws) :
    (o.drive ws).level l = o.level l := by
  induction ws generalizing o with
  | nil => rfl
  | cons p ws ih =>
    obtain ⟨l', v'⟩ := p
    have hl : l ≠ l' := fun hll => h v' (by simp [hll])
    rw [Lines.drive_cons, ih _ fun v hv => h v (List.mem_cons_of_mem _ hv), Lines.level_set, if_neg hl]

/-- A line that is written once has the level written. -/
theorem Lines.level_drive_of_mem {l : Line} {v : Bool} {ws : WriteList} (o : Lines) (hnd : (ws.map Prod.fst).Nodup)
    (h : (l, v) ∈ ws) : (o.drive ws).level l = v := by
  induction ws generalizing o with
  | nil => simp at h
  | cons p ws ih =>
    obtain ⟨l', v'⟩ := p
    obtain ⟨hl', hws⟩ := List.nodup_cons.1 hnd
    rw [Lines.drive_cons]
    rcases List.mem_cons.1 h with heq | hmem
    · obtain ⟨rfl, rfl⟩ := Prod.mk.inj heq
      have hun : ∀ w, (l, w) ∉ ws := fun w hw => hl' (List.mem_map.2 ⟨(l, w), hw, rfl⟩)
      rw [Lines.level_drive_of_unwritten _ hun, Lines.level_set, if_pos rfl]
    · exact ih _ hws hmem

/-- A micro-step drives its writes onto the lines, each line at most once (42_scan_engine.md R154 to R164). -/
theorem microStep_drives {s : State} (hw : s.writes = []) :
    (microStep s).out = s.out.drive (microStep s).writes ∧ ((microStep s).writes.map Prod.fst).Nodup := by
  cases hp : s.phase with
  | blankOn => simp [microStep_blankOn hp, microBlankOn, hw]
  | setAddr => simp [microStep_setAddr hp, microSetAddr, hw]
  | colUp => simp [microStep_colUp hp, microColUp, hw]
  | colLo => simp [microStep_colLo hp, microColLo, hw]
  | clkHi => simp [microStep_clkHi hp, microClkHi, hw]
  | clkLo => rw [microStep_clkLo hp, microClkLo]; split <;> simp [hw]
  | latHi => simp [microStep_latHi hp, microLatHi, hw]
  | latLo => simp [microStep_latLo hp, microLatLo, hw]
  | blankOff => rw [microStep_blankOff hp, microBlankOff]; split <;> simp [hw]
  | rowHold => rw [microStep_rowHold hp, microRowHold]; dsimp only; split <;> simp [hw]

/-- A command writes no line unless it raises RANGE. -/
theorem exec_lines {i : Instr} {s t : State} (h : exec i s = .next t) :
    (t.writes = s.writes ∧ t.out = s.out) ∨ t = s.raiseFault .range := by
  rcases exec_cases h with ⟨fb, rfl, -, -⟩ | ⟨n, -, rfl⟩ | ⟨x, y, -, rfl⟩ | ⟨-, rfl⟩ | ⟨-, rfl⟩ |
    ⟨x1, y1, x2, y2, k, -, -, rfl⟩
  case inr.inr.inr.inr.inr => exact .inr rfl
  all_goals exact .inl ⟨rfl, rfl⟩

/-- What a step without reset does to the lines: nothing, or the fault entry blanks the panel, or a micro-step drives its writes. -/
theorem step_lines {s t : State} (hr : s.pins.rst = false) (ht : step s = .next t) :
    (t.writes = [] ∧ t.out = s.out) ∨
    (s.mode = .idle ∧ t.mode = .fault ∧ t.writes = [(.oe, true)] ∧ t.out = s.out.drive t.writes) ∨
    (s.mode = .scan ∧ t.out = s.out.drive t.writes ∧ (t.writes.map Prod.fst).Nodup) := by
  rcases step_cases ht with ⟨hr', -⟩ | ⟨-, hm, -, i, -, he⟩ | ⟨-, hm, -, e, -, rfl⟩ | ⟨-, -, -, rfl⟩ | ⟨-, hm, rfl⟩ |
    ⟨-, -, rfl⟩
  · simp [hr] at hr'
  · rcases exec_lines he with hsame | rfl
    · exact .inl hsame
    · exact .inr (.inl ⟨hm, rfl, rfl, rfl⟩)
  · exact .inr (.inl ⟨hm, rfl, rfl, rfl⟩)
  · exact .inl ⟨rfl, rfl⟩
  · exact .inr (.inr ⟨hm, microStep_drives rfl⟩)
  · exact .inl ⟨rfl, rfl⟩

/-- A step without reset drives its write list onto the lines. -/
theorem step_drives {s t : State} (hr : s.pins.rst = false) (ht : step s = .next t) : t.out = s.out.drive t.writes := by
  rcases step_lines hr ht with ⟨hw, ho⟩ | ⟨-, -, -, ho⟩ | ⟨-, ho, -⟩
  · simp [hw, ho]
  · exact ho
  · exact ho

/-- A reset writes no line (70_reset_and_hazards.md R230). -/
theorem step_reset_writes {s t : State} (hr : s.pins.rst = true) (ht : step s = .next t) : t.writes = [] := by
  rcases step_cases ht with ⟨-, rfl⟩ | ⟨hr', -⟩ | ⟨hr', -⟩ | ⟨hr', -⟩ | ⟨hr', -⟩ | ⟨hr', -⟩
  · rfl
  all_goals simp [hr] at hr'

/-- A step writes each line at most once. -/
theorem step_writes_nodup {s t : State} (hr : s.pins.rst = false) (ht : step s = .next t) :
    (t.writes.map Prod.fst).Nodup := by
  rcases step_lines hr ht with ⟨hw, -⟩ | ⟨-, -, hw, -⟩ | ⟨-, -, hnd⟩
  · simp [hw]
  · simp [hw]
  · exact hnd

/-- Settles O32: the lines are the old ones with the write list driven onto them, and in IDLE only the fault entry has one. -/
theorem linesKeepTheirLevelUntilWritten : Obligations.LinesKeepTheirLevelUntilWritten := by
  intro s t hr ht
  have hd := step_drives hr ht
  refine ⟨fun l hl => ?_, fun hw => by simp [hd, hw], fun hm hf => ?_⟩
  · rw [hd]
    exact Lines.level_drive_of_unwritten s.out hl
  · rcases step_lines hr ht with hnone | ⟨-, hfault, -⟩ | ⟨hscan, -⟩
    · exact hnone
    · exact absurd hfault hf
    · simp [hm] at hscan

/-- Settles O33: a driven write list with distinct lines leaves each line at the level written, and of the cases of a step only the
micro-steps and the fault entry have one. -/
theorem writeListsSayWhatTheLinesShow : Obligations.WriteListsSayWhatTheLinesShow := by
  intro s t ht
  cases hr : s.pins.rst with
  | true => simp [step_reset_writes hr ht]
  | false =>
    have hnd := step_writes_nodup hr ht
    refine ⟨fun l v hlv => ?_, hnd, fun hne => ?_⟩
    · rw [step_drives hr ht]
      exact Lines.level_drive_of_mem s.out hnd hlv
    · rcases step_lines hr ht with ⟨hw, -⟩ | ⟨hm, hf, hw, -⟩ | ⟨hm, -⟩
      · exact absurd hw hne
      · exact .inr ⟨hm, hf, hw⟩
      · exact .inl hm

end Sys2Proof.Machine
end

section
/-! The decoder reads the word of a command back as that command (30_encoding.md R86 to R94). -/

namespace Sys2Proof

section
variable (x : BitVec 5) (y : BitVec 4) (k : Color)

/-- The fields and the reserved bits of a SETPIX word (30_encoding.md R88). -/
theorem encode_setpix_fields :
    (encode (.setpix x y k)).extractLsb' 23 5 = 0 ∧ (encode (.setpix x y k)).extractLsb' 3 11 = 0 ∧
    fieldX (encode (.setpix x y k)) = x ∧ fieldY (encode (.setpix x y k)) = y ∧ fieldK (encode (.setpix x y k)) = k := by
  simp only [fieldX, fieldY, fieldK, encode, bitVec_eq_iff, forall_lt_succ_iff, BitVec.getLsbD_extractLsb',
    BitVec.getLsbD_append]
  simp

/-- The fields and the reserved bits of a FILLRECT word (30_encoding.md R89). -/
theorem encode_fillrect_fields (x2 : BitVec 6) (y2 : BitVec 5) :
    (encode (.fillrect x y x2 y2 k)).extractLsb' 23 5 = 0 ∧
    fieldX (encode (.fillrect x y x2 y2 k)) = x ∧ fieldY (encode (.fillrect x y x2 y2 k)) = y ∧
    fieldX2 (encode (.fillrect x y x2 y2 k)) = x2 ∧ fieldY2 (encode (.fillrect x y x2 y2 k)) = y2 ∧
    fieldK (encode (.fillrect x y x2 y2 k)) = k := by
  simp only [fieldX, fieldY, fieldX2, fieldY2, fieldK, encode, bitVec_eq_iff, forall_lt_succ_iff,
    BitVec.getLsbD_extractLsb', BitVec.getLsbD_append]
  simp

/-- The fields and the reserved bits of an RDPIX word (30_encoding.md R88). -/
theorem encode_rdpix_fields :
    (encode (.rdpix x y)).extractLsb' 23 5 = 0 ∧ (encode (.rdpix x y)).extractLsb' 0 14 = 0 ∧
    fieldX (encode (.rdpix x y)) = x ∧ fieldY (encode (.rdpix x y)) = y := by
  simp only [fieldX, fieldY, encode, bitVec_eq_iff, forall_lt_succ_iff, BitVec.getLsbD_extractLsb',
    BitVec.getLsbD_append]
  simp

/-- The field and the reserved bits of a WRDWELL word (30_encoding.md R91). -/
theorem encode_wrdwell_fields (n : BitVec 16) :
    (encode (.wrdwell n)).extractLsb' 16 12 = 0 ∧ fieldImm16 (encode (.wrdwell n)) = n := by
  simp only [fieldImm16, encode, bitVec_eq_iff, forall_lt_succ_iff, BitVec.getLsbD_extractLsb', BitVec.getLsbD_append]
  simp

end

/-- The word of a command has that command's opcode, its reserved bits are 0 and its fields hold the operands, so it decodes to the
command (30_encoding.md R94). -/
theorem decode_encode (i : Instr) : decode (encode i) = .ok i := by
  cases i with
  | setpix x y k =>
    have hop : fieldOpcode (encode (.setpix x y k)) = 1 := Laws.OpcodeField.setpix x y k
    simp [decode_eq, hop, encode_setpix_fields]
  | fillrect x1 y1 x2 y2 k =>
    have hop : fieldOpcode (encode (.fillrect x1 y1 x2 y2 k)) = 2 := Laws.OpcodeField.fillrect x1 y1 x2 y2 k
    simp [decode_eq, hop, encode_fillrect_fields]
  | clear => rfl
  | rdpix x y =>
    have hop : fieldOpcode (encode (.rdpix x y)) = 4 := Laws.OpcodeField.rdpix x y
    simp [decode_eq, hop, encode_rdpix_fields]
  | refresh => rfl
  | wrdwell n =>
    have hop : fieldOpcode (encode (.wrdwell n)) = 6 := Laws.OpcodeField.wrdwell n
    simp [decode_eq, hop, encode_wrdwell_fields]
  | rddwell => rfl

end Sys2Proof
end

section
/-! The frame buffer as addressed cells (20_memory.md R60 to R69): each index names one cell, every write of cells is
a fill, and a repeated fill finds the buffer as it leaves it. -/

namespace Sys2Proof.Machine

/-- Settles O27: the index is `16*x + y`, and `16*x + y` with `y` below 16 has one quotient and one remainder. -/
theorem linearIndexNamesEachCellOnce : Obligations.LinearIndexNamesEachCellOnce := by
  refine ⟨fun x y => ⟨cellIndex_eq x y, cellIndex_lt x y⟩, fun a ha => ?_⟩
  obtain ⟨x, y, rfl⟩ := exists_cellIndex ha
  exact ⟨x, y, rfl, fun x' y' h => cellIndex_inj.1 h⟩

/-- Filling the same cells with the same code again changes nothing. -/
theorem Memory.fill_fill {m : Memory} (hm : m.wf = true) (k : Color) {cells : List Nat}
    (hc : ∀ a ∈ cells, a < Config.cells) : (m.fill cells k).fill cells k = m.fill cells k := by
  have hf := Memory.wf_fill hm k hc
  refine Memory.ext_read (Memory.wf_fill hf k hc) hf fun a => ?_
  rw [Memory.read_fill hf k a hc, Memory.read_fill hm k a hc]
  split <;> rfl

section
variable {s : State}

theorem State.fillCells_fillCells (hm : s.fb.wf = true) (k : Color) {cells : List Nat}
    (hc : ∀ a ∈ cells, a < Config.cells) : (s.fillCells cells k).fillCells cells k = s.fillCells cells k := by
  unfold State.fillCells
  simp only [Memory.fill_fill hm k hc]

/-- After a fill each cell holds the code if it is listed, and otherwise what it held. -/
theorem State.cell_fillCells (hm : s.fb.wf = true) (k : Color) {cells : List Nat} (hc : ∀ a ∈ cells, a < Config.cells)
    (x : BitVec 5) (y : BitVec 4) :
    (s.fillCells cells k).cell x y = if cellIndex x y ∈ cells then k else s.cell x y :=
  Memory.read_fill hm k (cellIndex x y) hc

end

section
variable {x1 : BitVec 5} {y1 : BitVec 4} {x2 : BitVec 6} {y2 : BitVec 5} {k : Color}

/-- An empty rectangle holds no cell (40_framebuffer.md R116). -/
theorem rectCells_of_rectEmpty (h : rectEmpty x1 y1 x2 y2 = true) : rectCells x1.toNat y1.toNat x2.toNat y2.toNat = [] := by
  rcases rectEmpty_iff.1 h with hx | hy
  · simp [rectCells, Nat.sub_eq_zero_of_le hx]
  · simp [rectCells, Nat.sub_eq_zero_of_le hy]

/-- A FILLRECT that is not out of range is empty or lies inside the grid (40_framebuffer.md R117). -/
theorem inGrid_fillrect_iff : inGrid (.fillrect x1 y1 x2 y2 k) = true ↔
    rectEmpty x1 y1 x2 y2 = true ∨ (x2.toNat ≤ 32 ∧ y2.toNat ≤ 16) := by
  rw [← not_lt, ← not_lt, ← not_or, ← rectBeyond_iff]
  simp [inGrid, rectOutOfRange]

theorem rectCells_lt_of_inGrid (hg : inGrid (.fillrect x1 y1 x2 y2 k) = true) :
    ∀ a ∈ rectCells x1.toNat y1.toNat x2.toNat y2.toNat, a < Config.cells := by
  rcases inGrid_fillrect_iff.1 hg with he | ⟨hx, hy⟩
  · simp [rectCells_of_rectEmpty he]
  · exact rectCells_lt hx hy

/-- The rectangle holds the cells between its bounds, also when it is empty. -/
theorem cellIndex_mem_rectCells_of_inGrid (hg : inGrid (.fillrect x1 y1 x2 y2 k) = true) (x : BitVec 5) (y : BitVec 4) :
    cellIndex x y ∈ rectCells x1.toNat y1.toNat x2.toNat y2.toNat ↔
      (x1.toNat ≤ x.toNat ∧ x.toNat < x2.toNat) ∧ (y1.toNat ≤ y.toNat ∧ y.toNat < y2.toNat) := by
  rcases inGrid_fillrect_iff.1 hg with he | ⟨-, hy⟩
  · have hempty := rectEmpty_iff.1 he
    simp only [rectCells_of_rectEmpty he, List.not_mem_nil, false_iff]
    omega
  · rw [cellIndex_mem_rectCells hy, and_assoc]

/-- A FILLRECT that is not out of range fills its rectangle, also when that holds no cell (40_framebuffer.md R116). -/
theorem exec_fillrect_of_inGrid (hg : inGrid (.fillrect x1 y1 x2 y2 k) = true) (s : State) :
    exec (.fillrect x1 y1 x2 y2 k) s = .next (s.fillCells (rectCells x1.toNat y1.toNat x2.toNat y2.toNat) k) := by
  obtain ⟨t, ht⟩ := exec_total (.fillrect x1 y1 x2 y2 k) s
  rw [ht]
  rcases execFillrect_cases ht with ⟨he, rfl⟩ | ⟨he, hb, -⟩ | ⟨-, -, rfl⟩
  · rw [rectCells_of_rectEmpty he]
    rfl
  · simp [inGrid, rectOutOfRange, he, hb] at hg
  · rfl

end

section
variable (s : State)

/-- SETPIX fills the list of its one cell (40_framebuffer.md R110). -/
theorem exec_setpix (x : BitVec 5) (y : BitVec 4) (k : Color) :
    exec (.setpix x y k) s = .next (s.fillCells [cellIndex x y] k) := rfl

theorem exec_clear : exec .clear s = .next (s.fillCells allCells 0) := rfl

theorem exec_rdpix (x : BitVec 5) (y : BitVec 4) : exec (.rdpix x y) s = .next (s.respond (zext32 (s.cell x y))) := rfl

theorem exec_wrdwell (n : BitVec 16) : exec (.wrdwell n) s = .next (s.writeDwell n) := rfl

theorem exec_rddwell : exec .rddwell s = .next (s.respond (zext32 s.dwell)) := rfl

end

theorem singleton_cellIndex_lt (x : BitVec 5) (y : BitVec 4) : ∀ a ∈ [cellIndex x y], a < Config.cells := by
  simpa using cellIndex_lt x y

/-- Settles O26: WRDWELL stores the same value again, and each of the other writes fills the same cells with the same code again. -/
theorem writesAreIdempotent : Obligations.WritesAreIdempotent := by
  rintro s t i hm hg (⟨x, y, k, rfl⟩ | ⟨x1, y1, x2, y2, k, rfl⟩ | rfl | ⟨n, rfl⟩) h
  · rw [exec_setpix, Host.Outcome.next.injEq] at h
    rw [exec_setpix, ← h, State.fillCells_fillCells hm k (singleton_cellIndex_lt x y)]
  · rw [exec_fillrect_of_inGrid hg, Host.Outcome.next.injEq] at h
    rw [exec_fillrect_of_inGrid hg, ← h, State.fillCells_fillCells hm k (rectCells_lt_of_inGrid hg)]
  · rw [exec_clear, Host.Outcome.next.injEq] at h
    rw [exec_clear, ← h, State.fillCells_fillCells hm 0 allCells_lt]
  · rw [exec_wrdwell, Host.Outcome.next.injEq] at h
    subst h
    rfl

end Sys2Proof.Machine
end

section
/-! A program of held commands run from reset, command by command, against the reference of what its commands leave behind
(20_memory.md R72, R73; 43_config.md R194; 30_encoding.md R84). -/

namespace Sys2Proof.Machine

/-- Between two commands: the block is in IDLE, each cell holds its last write and DWELL its last WRDWELL, of the commands `earlier`,
latest first. -/
structure State.MeetsReference (s : State) (earlier : List Instr) : Prop where
  idle : s.mode = .idle
  wf : s.fb.wf = true
  cells : ∀ x y, s.cell x y = lastWrite x y earlier
  dwell : s.dwell = lastDwell earlier

theorem meetsReference_reset (host : List HostAction) : ({ State.reset with host := host } : State).MeetsReference [] :=
  ⟨rfl, rfl, fun _ _ => rfl, rfl⟩

section
variable {s t : State} {earlier : List Instr} {i : Instr}

/-- The reference does not speak of the host and the output ports. -/
theorem State.MeetsReference.withPorts (h : s.MeetsReference earlier) (host : List HostAction) (ws : WriteList)
    (r : Option Word) : ({ s with host := host, writes := ws, rsp := r } : State).MeetsReference earlier :=
  ⟨h.idle, h.wf, h.cells, h.dwell⟩

/-- A fill does what the reference says of a command that writes these cells. -/
theorem State.MeetsReference.fillCells (h : s.MeetsReference earlier) {k : Color} {cells : List Nat}
    (hlt : ∀ a ∈ cells, a < Config.cells) (hd : lastDwell (i :: earlier) = lastDwell earlier)
    (hc : ∀ x y, lastWrite x y (i :: earlier) = if cellIndex x y ∈ cells then k else lastWrite x y earlier) :
    (s.fillCells cells k).MeetsReference (i :: earlier) := by
  refine ⟨h.idle, Memory.wf_fill h.wf k hlt, fun x y => ?_, h.dwell.trans hd.symm⟩
  rw [State.cell_fillCells h.wf k hlt, h.cells, hc]

/-- A command that ends in its accepting step does what the reference says of it, and leaves the host alone. -/
theorem exec_meets_reference (h : s.MeetsReference earlier) (hrsp : s.rsp = none) (hg : inGrid i = true)
    (hi : i ≠ .refresh) (he : exec i s = .next t) :
    t.MeetsReference (i :: earlier) ∧ t.host = s.host ∧ t.rsp.toList = responsesOf earlier i := by
  cases i with
  | setpix x y k =>
    rw [exec_setpix, Host.Outcome.next.injEq] at he
    subst he
    refine ⟨h.fillCells (singleton_cellIndex_lt x y) rfl fun x' y' => ?_, rfl, by simp [hrsp, responsesOf]⟩
    simp [lastWrite, cellIndex_inj, eq_comm]
  | fillrect x1 y1 x2 y2 k =>
    rw [exec_fillrect_of_inGrid hg, Host.Outcome.next.injEq] at he
    subst he
    refine ⟨h.fillCells (rectCells_lt_of_inGrid hg) rfl fun x y => ?_, rfl, by simp [hrsp, responsesOf]⟩
    simp only [lastWrite, cellIndex_mem_rectCells_of_inGrid hg]
  | clear =>
    rw [exec_clear, Host.Outcome.next.injEq] at he
    subst he
    refine ⟨h.fillCells allCells_lt rfl fun x y => ?_, State.fillCells_host s allCells 0, by simp [hrsp, responsesOf]⟩
    rw [lastWrite, if_pos (cellIndex_mem_allCells x y)]
  | rdpix x y =>
    rw [exec_rdpix, Host.Outcome.next.injEq] at he
    subst he
    exact ⟨⟨h.idle, h.wf, h.cells, h.dwell⟩, rfl, by simp [responsesOf, h.cells]⟩
  | refresh => exact absurd rfl hi
  | wrdwell n =>
    rw [exec_wrdwell, Host.Outcome.next.injEq] at he
    subst he
    exact ⟨⟨h.idle, h.wf, h.cells, rfl⟩, rfl, by simp [hrsp, responsesOf]⟩
  | rddwell =>
    rw [exec_rddwell, Host.Outcome.next.injEq] at he
    subst he
    exact ⟨⟨h.idle, h.wf, h.cells, h.dwell⟩, rfl, by simp [responsesOf, h.dwell]⟩

theorem stepsOf_of_ne_refresh (hi : i ≠ .refresh) : stepsOf earlier i = 1 := by
  cases i with
  | refresh => exact absurd rfl hi
  | _ => rfl

/-- One held command, run through its steps: a REFRESH through its whole scan, every other command in its one step. -/
theorem command_meets_reference {rest : List Instr} (h : s.MeetsReference earlier) (hg : inGrid i = true)
    (hh : s.host = holdAll (i :: rest)) :
    (stateAfter (stepsOf earlier i) s).MeetsReference (i :: earlier) ∧
    (stateAfter (stepsOf earlier i) s).host = holdAll rest ∧
    responses (stepsOf earlier i) s = responsesOf earlier i := by
  by_cases hi : i = .refresh
  · subst hi
    have hsteps : stepsOf earlier .refresh = refreshSteps s.dwell.toNat := by rw [h.dwell]; rfl
    obtain ⟨hend, hresp⟩ := refresh_held h.idle hh
    rw [hsteps, hend, hresp]
    exact ⟨⟨h.idle, h.wf, h.cells, h.dwell⟩, rfl, rfl⟩
  · obtain ⟨t, ht⟩ := exec_total i { s with host := holdAll rest, writes := [], rsp := none }
    have hs : step s = .next t := (step_held h.idle hh (decode_encode i)).trans ht
    rw [stepsOf_of_ne_refresh hi, stateAfter_succ hs, responses_one hs]
    exact exec_meets_reference (h.withPorts _ _ _) rfl hg hi ht

end

/-- A program held in front of other commands, run through its steps, meets the reference, and then the host holds the others. -/
theorem program_meets_reference {rest : List Instr} (cs : List Instr) (hg : ∀ i ∈ cs, inGrid i = true) :
    ∀ (s : State) (earlier : List Instr), s.MeetsReference earlier → s.host = holdAll (cs ++ rest) →
      (stateAfter (programSteps earlier cs) s).MeetsReference (cs.reverse ++ earlier) ∧
      (stateAfter (programSteps earlier cs) s).host = holdAll rest ∧
      responses (programSteps earlier cs) s = programResponses earlier cs := by
  induction cs with
  | nil => exact fun s earlier h hh => ⟨h, hh, rfl⟩
  | cons i cs ih =>
    intro s earlier h hh
    obtain ⟨hi, hcs⟩ := List.forall_mem_cons.1 hg
    obtain ⟨h1, hh1, hr1⟩ := command_meets_reference h hi hh
    obtain ⟨h2, hh2, hr2⟩ := ih hcs _ _ h1 hh1
    rw [programSteps, programResponses, stateAfter_add, responses_add, hr1, hr2, List.reverse_cons, List.append_assoc]
    exact ⟨h2, hh2, rfl⟩

/-- Settles O52: the state after reset meets the reference of no command, and every command of the program passes the reference
on. -/
theorem programsMeetTheReference : Obligations.ProgramsMeetTheReference := by
  rintro cs s t hg rfl rfl
  obtain ⟨⟨hm, -, hc, hd⟩, hh, hr⟩ :=
    program_meets_reference (rest := []) cs hg _ [] (meetsReference_reset (holdAll cs)) (by rw [List.append_nil])
  rw [List.append_nil] at hc hd
  exact ⟨⟨hh, hm⟩, hc, hd, hr⟩

end Sys2Proof.Machine
end

section
/-! The decoder by opcode (30_encoding.md R86 to R98): what it makes of a word with each opcode, which words are ILLEGAL, and that a
decoded word is the word of its command. -/

namespace Sys2Proof

/-- Settles O1: a command's word has its opcode, zero reserved bits and its operands as fields. -/
theorem decodeOfEncodeIsTheCommand : Obligations.DecodeOfEncodeIsTheCommand :=
  decode_encode

/-- Settles O4: the words are those the encoder writes, and the decoder reads back what the encoder writes. -/
theorem workedEncodingsReadAndWrite : Obligations.WorkedEncodingsReadAndWrite := by
  intro p hp
  have hw : encode p.1 = p.2 := by
    revert p
    decide
  exact ⟨hw ▸ decode_encode p.1, hw⟩

section
variable {w : Word}

theorem decode_of_opcode_setpix (h : fieldOpcode w = 1) : decode w =
    if w.extractLsb' 23 5 = 0 ∧ w.extractLsb' 3 11 = 0 then .ok (.setpix (fieldX w) (fieldY w) (fieldK w))
    else .error .reservedBits := by
  simp [decode_eq, h, opcodeDefined_iff]

theorem decode_of_opcode_fillrect (h : fieldOpcode w = 2) : decode w =
    if w.extractLsb' 23 5 = 0 then .ok (.fillrect (fieldX w) (fieldY w) (fieldX2 w) (fieldY2 w) (fieldK w))
    else .error .reservedBits := by
  simp [decode_eq, h, opcodeDefined_iff]

theorem decode_of_opcode_clear (h : fieldOpcode w = 3) : decode w =
    if w.extractLsb' 0 28 = 0 then .ok .clear else .error .reservedBits := by
  simp [decode_eq, h, opcodeDefined_iff]

theorem decode_of_opcode_rdpix (h : fieldOpcode w = 4) : decode w =
    if w.extractLsb' 23 5 = 0 ∧ w.extractLsb' 0 14 = 0 then .ok (.rdpix (fieldX w) (fieldY w))
    else .error .reservedBits := by
  simp [decode_eq, h, opcodeDefined_iff]

theorem decode_of_opcode_refresh (h : fieldOpcode w = 5) : decode w =
    if w.extractLsb' 0 28 = 0 then .ok .refresh else .error .reservedBits := by
  simp [decode_eq, h, opcodeDefined_iff]

theorem decode_of_opcode_wrdwell (h : fieldOpcode w = 6) : decode w =
    if w.extractLsb' 16 12 = 0 then .ok (.wrdwell (fieldImm16 w)) else .error .reservedBits := by
  simp [decode_eq, h, opcodeDefined_iff]

theorem decode_of_opcode_rddwell (h : fieldOpcode w = 7) : decode w =
    if w.extractLsb' 0 28 = 0 then .ok .rddwell else .error .reservedBits := by
  simp [decode_eq, h, opcodeDefined_iff]

theorem reserved_opcode_ne : ∀ op : BitVec 4, (op = 0 ∨ 8 ≤ op.toNat) →
    op ≠ 1#4 ∧ op ≠ 2#4 ∧ op ≠ 3#4 ∧ op ≠ 4#4 ∧ op ≠ 5#4 ∧ op ≠ 6#4 ∧ op ≠ 7#4 := by decide

/-- A reserved opcode makes every word ILLEGAL (30_encoding.md R95). -/
theorem decode_of_opcode_reserved (h : fieldOpcode w = 0 ∨ 8 ≤ (fieldOpcode w).toNat) :
    decode w = .error .reservedOpcode := by
  have hundef : ¬opcodeDefined (fieldOpcode w) = true := fun hd => (opcodeDefined_iff _).1 hd h
  simp [decode_eq, hundef, reserved_opcode_ne _ h]

end

/-- The seven opcodes of the map and the reserved ones (30_encoding.md R93). -/
theorem opcode_cases : ∀ op : BitVec 4,
    op = 1 ∨ op = 2 ∨ op = 3 ∨ op = 4 ∨ op = 5 ∨ op = 6 ∨ op = 7 ∨ (op = 0 ∨ 8 ≤ op.toNat) := by decide

/-- A word whose opcode is defined decodes only with its reserved bits 0 (30_encoding.md R94). -/
theorem decode_ok_of_eq_ite {w : Word} {i j : Instr} {zeroReserved : Prop} [Decidable zeroReserved]
    (h : decode w = if zeroReserved then .ok i else .error .reservedBits) (hj : decode w = .ok j) :
    zeroReserved ∧ i = j := by
  rw [h] at hj
  split at hj <;> simp_all

/-- A word whose opcode is defined is ILLEGAL only for its reserved bits (30_encoding.md R96). -/
theorem decode_error_iff_of_eq_ite {w : Word} {i : Instr} {zeroReserved : Prop} [Decidable zeroReserved]
    (h : decode w = if zeroReserved then .ok i else .error .reservedBits) :
    decode w ≠ .error .reservedOpcode ∧ (decode w = .error .reservedBits ↔ ¬zeroReserved) := by
  rw [h]
  split <;> simp_all

/-- Settles O3: for each opcode, the decoder's one test of the reserved bits. -/
theorem reservedOpcodesAndReservedBitsAreIllegal : Obligations.ReservedOpcodesAndReservedBitsAreIllegal := by
  intro w
  rcases opcode_cases (fieldOpcode w) with h | h | h | h | h | h | h | h
  · simp [h, decode_error_iff_of_eq_ite (decode_of_opcode_setpix h), imp_iff_not_or]
  · simp [h, decode_error_iff_of_eq_ite (decode_of_opcode_fillrect h)]
  · simp [h, decode_error_iff_of_eq_ite (decode_of_opcode_clear h)]
  · simp [h, decode_error_iff_of_eq_ite (decode_of_opcode_rdpix h), imp_iff_not_or]
  · simp [h, decode_error_iff_of_eq_ite (decode_of_opcode_refresh h)]
  · simp [h, decode_error_iff_of_eq_ite (decode_of_opcode_wrdwell h)]
  · simp [h, decode_error_iff_of_eq_ite (decode_of_opcode_rddwell h)]
  · have hill := decode_of_opcode_reserved h
    refine ⟨iff_of_true hill h, ?_⟩
    simp [hill, reserved_opcode_ne _ h]

section
variable {v w : Word}

/-- Words with the same `m` bits from bit `a` on and the same `n` bits above these have the same `n + m` bits from bit `a` on. -/
theorem extractLsb'_eq_of_parts {a m n : Nat} (hlow : v.extractLsb' a m = w.extractLsb' a m)
    (hhigh : v.extractLsb' (a + m) n = w.extractLsb' (a + m) n) : v.extractLsb' a (n + m) = w.extractLsb' a (n + m) := by
  rw [← BitVec.extractLsb'_append_extractLsb'_eq_extractLsb' rfl, hhigh, hlow,
    BitVec.extractLsb'_append_extractLsb'_eq_extractLsb' rfl]

/-- A word is its opcode and its bits 27:0 (30_encoding.md R90). -/
theorem word_ext_formatN (hop : fieldOpcode v = fieldOpcode w) (hlow : v.extractLsb' 0 28 = w.extractLsb' 0 28) : v = w := by
  have h : v.extractLsb' 0 32 = w.extractLsb' 0 32 := extractLsb'_eq_of_parts hlow hop
  rwa [BitVec.extractLsb'_eq_self, BitVec.extractLsb'_eq_self] at h

/-- A word is its opcode, its bits 27:23, its coordinates and its bits 13:0 (30_encoding.md R88, R89). -/
theorem word_ext_formatP (hop : fieldOpcode v = fieldOpcode w) (hres : v.extractLsb' 23 5 = w.extractLsb' 23 5)
    (hx : fieldX v = fieldX w) (hy : fieldY v = fieldY w) (hlow : v.extractLsb' 0 14 = w.extractLsb' 0 14) : v = w := by
  have h18 : v.extractLsb' 0 18 = w.extractLsb' 0 18 := extractLsb'_eq_of_parts hlow hy
  have h23 : v.extractLsb' 0 23 = w.extractLsb' 0 23 := extractLsb'_eq_of_parts h18 hx
  exact word_ext_formatN hop (extractLsb'_eq_of_parts h23 hres)

end

/-- Settles O2: the command's word and the decoded word agree in the opcode, the reserved bits and every field. -/
theorem decodedWordIsTheCommandsOnlyWord : Obligations.DecodedWordIsTheCommandsOnlyWord := by
  intro w i h
  rcases opcode_cases (fieldOpcode w) with hop | hop | hop | hop | hop | hop | hop | hop
  · obtain ⟨⟨h23, h3⟩, rfl⟩ := decode_ok_of_eq_ite (decode_of_opcode_setpix hop) h
    obtain ⟨e23, e3, ex, ey, ek⟩ := encode_setpix_fields (fieldX w) (fieldY w) (fieldK w)
    exact word_ext_formatP ((Laws.OpcodeField.setpix _ _ _).trans hop.symm) (e23.trans h23.symm) ex ey
      (extractLsb'_eq_of_parts ek (e3.trans h3.symm))
  · obtain ⟨h23, rfl⟩ := decode_ok_of_eq_ite (decode_of_opcode_fillrect hop) h
    obtain ⟨e23, ex, ey, ex2, ey2, ek⟩ := encode_fillrect_fields (fieldX w) (fieldY w) (fieldK w) (fieldX2 w) (fieldY2 w)
    exact word_ext_formatP ((Laws.OpcodeField.fillrect _ _ _ _ _).trans hop.symm) (e23.trans h23.symm) ex ey
      (extractLsb'_eq_of_parts (extractLsb'_eq_of_parts ek ey2) ex2)
  · obtain ⟨h0, rfl⟩ := decode_ok_of_eq_ite (decode_of_opcode_clear hop) h
    exact word_ext_formatN hop.symm h0.symm
  · obtain ⟨⟨h23, h0⟩, rfl⟩ := decode_ok_of_eq_ite (decode_of_opcode_rdpix hop) h
    obtain ⟨e23, e0, ex, ey⟩ := encode_rdpix_fields (fieldX w) (fieldY w)
    exact word_ext_formatP ((Laws.OpcodeField.rdpix _ _).trans hop.symm) (e23.trans h23.symm) ex ey (e0.trans h0.symm)
  · obtain ⟨h0, rfl⟩ := decode_ok_of_eq_ite (decode_of_opcode_refresh hop) h
    exact word_ext_formatN hop.symm h0.symm
  · obtain ⟨h16, rfl⟩ := decode_ok_of_eq_ite (decode_of_opcode_wrdwell hop) h
    obtain ⟨e16, en⟩ := encode_wrdwell_fields (fieldImm16 w)
    exact word_ext_formatN ((Laws.OpcodeField.wrdwell _).trans hop.symm) (extractLsb'_eq_of_parts en (e16.trans h16.symm))
  · obtain ⟨h0, rfl⟩ := decode_ok_of_eq_ite (decode_of_opcode_rddwell hop) h
    exact word_ext_formatN hop.symm h0.symm
  · simp [decode_of_opcode_reserved hop] at h

end Sys2Proof
end

section
/-! The assembler (30_encoding.md R99): a command's operands are in range, and operands in range are those of one command. -/

namespace Sys2Proof

theorem Instr.wf_toAsm (i : Instr) : i.toAsm.wf = true := by
  cases i with
  | setpix x y k => exact Laws.OperandsInRange.setpix x y k
  | fillrect x1 y1 x2 y2 k => exact Laws.OperandsInRange.fillrect x1 y1 x2 y2 k
  | clear => rfl
  | rdpix x y => exact Laws.OperandsInRange.rdpix x y
  | refresh => rfl
  | wrdwell n => exact Laws.OperandsInRange.wrdwell n
  | rddwell => rfl

theorem Instr.toInstr_toAsm (i : Instr) : i.toAsm.toInstr = i := by
  cases i <;> simp [Instr.toAsm, AsmCommand.toInstr]

/-- An operand in range is not wrapped: the command's field holds its value. -/
theorem AsmCommand.toAsm_toInstr {c : AsmCommand} (h : c.wf = true) : c.toInstr.toAsm = c := by
  cases c <;> simp [AsmCommand.wf, AsmCommand.toInstr, Instr.toAsm] at h ⊢ <;> omega

/-- Settles O5: on operands in range the assembler form and the command determine each other, and others are refused. -/
theorem assemblerRefusesOperandsOutOfRange : Obligations.AssemblerRefusesOperandsOutOfRange := by
  intro c i
  unfold AsmCommand.assemble
  constructor
  · intro h
    split at h
    · next hwf =>
      obtain rfl : c.toInstr = i := by simpa using h
      exact (AsmCommand.toAsm_toInstr hwf).symm
    · simp at h
  · rintro rfl
    rw [if_pos i.wf_toAsm, i.toInstr_toAsm]

end Sys2Proof
end

section
/-! The host port (30_encoding.md R80 to R84, R100): what an action at the head of the host's list puts on the input signals and when
it goes, what an accepted command does, and that nothing presented outside IDLE reaches the block. -/

namespace Sys2Proof.Machine

section
variable {s : State} {a : HostAction} {rest : List HostAction}

theorem State.cmdReady_iff : s.cmdReady = true ↔ s.mode = .idle := by
  simp [State.cmdReady]

/-- Every action but WAITIDLE is taken up at once. -/
theorem State.pending_of_not_wait (hh : s.host = a :: rest) (ha : a.isWait = false) : s.pending = a :: rest := by
  simp [State.pending, hh, ha]

/-- While the block is not ready every action is taken up as it stands. -/
theorem State.pending_of_not_idle (hm : s.mode ≠ .idle) : s.pending = s.host := by
  simp [State.pending, State.cmdReady, hm]

/-- WAITIDLE takes no step once the block is ready (30_encoding.md R100). -/
theorem State.pending_waitIdle (hh : s.host = .waitIdle :: a :: rest) (hm : s.mode = .idle) (ha : a.isWait = false) :
    s.pending = a :: rest := by
  rw [State.pending, if_pos (State.cmdReady_iff.2 hm), hh, List.dropWhile_cons_of_pos rfl,
    List.dropWhile_cons_of_neg (by simp [ha])]

theorem State.pins_of_pending (hp : s.pending = a :: rest) : s.pins = a.pins := by
  simp [State.pins, hp]

theorem State.hostAfter_of_pending (hp : s.pending = a :: rest) :
    s.hostAfter = if a.doneAfter s.cmdReady then rest else a :: rest := by
  simp [State.hostAfter, hp]

end

/-- Settles O11: the held word is the action taken up, and it is done exactly when the block is ready. -/
theorem heldWordStaysUntilAccepted : Obligations.HeldWordStaysUntilAccepted := by
  intro s t w rest hh ht
  have hp := State.pending_of_not_wait hh rfl
  rw [step_host ht, State.hostAfter_of_pending hp]
  refine ⟨State.pins_of_pending hp, fun hm => ?_, fun hm => ?_⟩
  · rw [HostAction.doneAfter, if_pos (State.cmdReady_iff.2 hm)]
  · rw [HostAction.doneAfter, if_neg (mt State.cmdReady_iff.1 hm), hh]

/-- Settles O12: each clause names the action taken up, its levels and whether it is done. -/
theorem waitAndLoopActAtThePort : Obligations.WaitAndLoopActAtThePort := by
  intro s w rest
  refine ⟨fun hh hm => ?_, fun hh hm => ?_, fun hh => ?_⟩
  · have hp := (State.pending_of_not_idle hm).trans hh
    rw [State.pins_of_pending hp, State.hostAfter_of_pending hp, hh]
    exact ⟨rfl, rfl⟩
  · have hp := State.pending_waitIdle hh hm rfl
    rw [State.accepts_iff, State.pins_of_pending hp, State.hostAfter_of_pending hp, State.cmdReady_iff.2 hm]
    exact ⟨⟨hm, rfl, rfl⟩, rfl, rfl⟩
  · have hp := State.pending_of_not_wait hh rfl
    rw [State.pins_of_pending hp, State.hostAfter_of_pending hp, hh]
    exact ⟨rfl, rfl, rfl, rfl⟩

section
variable {s : State}

/-- The step that accepts a command's word runs the command (30_encoding.md R81). -/
theorem step_accepted {i : Instr} (ha : s.accepts = true) (hd : decode s.pins.cmdData = .ok i) :
    step s = exec i s.beginStep := by
  obtain ⟨hm, hr, hv⟩ := State.accepts_iff.1 ha
  simp [step, cycle, idleStep, acceptWord, hm, hr, hv, hd]

theorem step_reset (hr : s.pins.rst = true) : step s = .next s.beginStep.resetBlock := by
  simp [step, cycle, hr]

theorem step_fault (hm : s.mode = .fault) (hr : s.pins.rst = false) : step s = .next s.beginStep := by
  simp [step, cycle, faultStep, hm, hr]

end

/-- Settles O13: beginning the step moves the host on and empties the output ports. -/
theorem stepRunsTheDecodedCommand : Obligations.StepRunsTheDecodedCommand :=
  fun _ _ ha hd => step_accepted ha hd

theorem decodeTableWord_eq_some_iff {nbits w : Nat} {i : Instr} :
    decodeTableWord nbits w = some i ↔ decode (tableWord nbits w) = .ok i := by
  unfold decodeTableWord
  cases decode (tableWord nbits w) <;> simp

/-- Settles O14: the placed word is a held word that is accepted in IDLE, and the host's list is then what it was. -/
theorem placedWordRunsNext : Obligations.PlacedWordRunsNext := by
  intro s nbits w i hd
  obtain ⟨ha, hw, hrest⟩ := held_word (s := s.withFetchWord nbits w) rfl rfl
  rw [step_accepted ha (hw ▸ decodeTableWord_eq_some_iff.1 hd), State.beginStep, hrest]
  rfl

/-- With any list of host actions a scan step without reset leaves the same block. -/
theorem step_scan_withHost {s : State} {h : List HostAction} (hm : s.mode = .scan)
    (hr : ({ s with host := h } : State).pins.rst = false) :
    step { s with host := h } = .next { s.scanNext with host := ({ s with host := h } : State).hostAfter } := by
  rw [step_scanNext (s := { s with host := h }) hm hr, State.scanNext_host]

theorem mode_of_not_idle {s : State} (hm : s.mode ≠ .idle) : s.mode = .scan ∨ s.mode = .fault := by
  cases h : s.mode <;> simp [h] at hm ⊢

/-- Settles O10: a reset, a micro-step and the quiescence of FAULT leave the same block whatever the host's list is. -/
theorem noCommandIsAcceptedOutsideIdle : Obligations.NoCommandIsAcceptedOutsideIdle := by
  refine ⟨fun s => State.cmdReady_iff, fun s h h' hm hrst => ?_⟩
  cases hr : ({ s with host := h } : State).pins.rst with
  | true => exact ⟨_, _, step_reset hr, step_reset (hrst ▸ hr), rfl⟩
  | false =>
    have hr' := hrst ▸ hr
    rcases mode_of_not_idle hm with hscan | hfault
    · exact ⟨_, _, step_scan_withHost hscan hr, step_scan_withHost hscan hr', rfl⟩
    · exact ⟨_, _, step_fault hfault hr, step_fault hfault hr', rfl⟩

@[simp] theorem State.beginStep_cell (s : State) (x : BitVec 5) (y : BitVec 4) : s.beginStep.cell x y = s.cell x y := rfl

/-- A command gives a response exactly if it is a read, and then the value read (40_framebuffer.md R126, 43_config.md R193). -/
theorem exec_rsp {i : Instr} {s t : State} (hs : s.rsp = none) (h : exec i s = .next t) (v : Word) :
    t.rsp = some v ↔ (∃ x y, i = .rdpix x y ∧ v = zext32 (s.cell x y)) ∨ (i = .rddwell ∧ v = zext32 s.dwell) := by
  rcases exec_cases h with ⟨fb, rfl, -, hi⟩ | ⟨n, rfl, rfl⟩ | ⟨x, y, rfl, rfl⟩ | ⟨rfl, rfl⟩ | ⟨rfl, rfl⟩ |
    ⟨x1, y1, x2, y2, k, rfl, -, rfl⟩
  · rcases hi with ⟨x, y, k, rfl⟩ | ⟨x1, y1, x2, y2, k, rfl⟩ | rfl <;> simp [hs]
  · simp [hs]
  · simp [eq_comm]
  · simp [eq_comm]
  · simp [hs]
  · simp [hs]

/-- Settles O31: of the cases of a step only a command executed can give a response, and of the commands only the reads do. -/
theorem responsesComeOnlyFromReads : Obligations.ResponsesComeOnlyFromReads := by
  intro s t ht
  refine ⟨fun v => ?_, fun hv => ?_⟩
  · rcases step_cases ht with ⟨hr, rfl⟩ | ⟨hr, hm, hv, i, hd, he⟩ | ⟨-, -, -, e, hd, rfl⟩ | ⟨-, -, hv, rfl⟩ | ⟨-, hm, rfl⟩ |
      ⟨-, hm, rfl⟩
    · simp [State.accepts, hr]
    · simpa [State.accepts_iff, hr, hm, hv, hd] using exec_rsp rfl he v
    · simp [hd]
    · simp [State.accepts, hv]
    · obtain ⟨-, -, -, -, -, hrsp⟩ := microStep_frame s.beginStep
      simp [hrsp, State.accepts, State.cmdReady, hm]
    · simp [State.accepts, State.cmdReady, hm]
  · simp only [State.rspValid, Option.isSome_eq_false_iff, Option.isNone_iff_eq_none] at hv
    simp [State.rspData, hv]

end Sys2Proof.Machine
end

section
/-! The frame buffer commands (40_framebuffer.md): SETPIX, FILLRECT and CLEAR as fills that change their own cells only, the FILLRECT
that is out of range, and RDPIX, alone and as the 512 commands of SNAPSHOT. -/

namespace Sys2Proof.Machine

/-- A fill of cells of the grid leaves every index that is not listed. -/
theorem State.read_fillCells_of_notMem {s : State} (hm : s.fb.wf = true) (k : Color) {cells : List Nat}
    (hc : ∀ a ∈ cells, a < Config.cells) {a : Nat} (ha : a ∉ cells) : (s.fillCells cells k).fb.read a = s.fb.read a := by
  rw [State.fillCells_fb, Memory.read_fill hm k a hc, if_neg ha]

/-- The cells of a FILLRECT that is not out of range are cells of the grid. -/
theorem notMem_rectCells_of_ne_cellIndex {x1 : BitVec 5} {y1 : BitVec 4} {x2 : BitVec 6} {y2 : BitVec 5} {k : Color} {a : Nat}
    (hg : inGrid (.fillrect x1 y1 x2 y2 k) = true) (ha : ∀ x y, a ≠ cellIndex x y) :
    a ∉ rectCells x1.toNat y1.toNat x2.toNat y2.toNat := by
  intro hmem
  obtain ⟨x, y, hxy⟩ := exists_cellIndex (rectCells_lt_of_inGrid hg a hmem)
  exact ha x y hxy.symm

/-- Settles O18: SETPIX fills the list of its one cell, and another cell has another index. -/
theorem setpixWritesExactlyOneCell : Obligations.SetpixWritesExactlyOneCell := by
  intro s x y k hm
  have hlt := singleton_cellIndex_lt x y
  refine ⟨_, exec_setpix s x y k, ?_, fun x' y' hne => ?_, fun a ha => ?_, rfl⟩
  · rw [State.cell_fillCells hm k hlt, if_pos List.mem_cons_self]
  · rw [State.cell_fillCells hm k hlt, if_neg (by rwa [List.mem_singleton, cellIndex_inj])]
  · exact State.read_fillCells_of_notMem hm k hlt (by rwa [List.mem_singleton])

/-- Settles O19: the cells filled are those between the bounds, and none when the rectangle is empty. -/
theorem fillrectFillsExactlyTheRectangle : Obligations.FillrectFillsExactlyTheRectangle := by
  intro s x1 y1 x2 y2 k hm hr
  have hg : inGrid (.fillrect x1 y1 x2 y2 k) = true := by rwa [inGrid_fillrect_iff, rectEmpty_iff]
  have hlt := rectCells_lt_of_inGrid hg
  refine ⟨_, exec_fillrect_of_inGrid hg s, fun x y => ?_, fun he => ?_, fun a ha => ?_, rfl⟩
  · simp only [State.cell_fillCells hm k hlt, cellIndex_mem_rectCells_of_inGrid hg]
  · rw [rectCells_of_rectEmpty (rectEmpty_iff.2 he)]
    rfl
  · exact State.read_fillCells_of_notMem hm k hlt (notMem_rectCells_of_ne_cellIndex hg ha)

/-- A FILLRECT that is out of range raises RANGE and does nothing else (40_framebuffer.md R117). -/
theorem exec_fillrect_of_rectOutOfRange {x1 : BitVec 5} {y1 : BitVec 4} {x2 : BitVec 6} {y2 : BitVec 5}
    (h : rectOutOfRange x1 y1 x2 y2 = true) (k : Color) (s : State) :
    exec (.fillrect x1 y1 x2 y2 k) s = .next (s.raiseFault .range) := by
  obtain ⟨t, ht⟩ := exec_total (.fillrect x1 y1 x2 y2 k) s
  rw [ht]
  rcases execFillrect_cases ht with ⟨he, -⟩ | ⟨-, -, rfl⟩ | ⟨-, hb, -⟩
  · simp [rectOutOfRange, he] at h
  · rfl
  · simp [rectOutOfRange, hb] at h

/-- A non-empty rectangle of numbers names a cell outside the grid exactly when a bound lies beyond it: its far corner is the first
to leave the grid. -/
theorem exists_outside_grid_iff {x1 y1 x2 y2 : Nat} (hx : x1 < x2) (hy : y1 < y2) :
    (∃ x y : Nat, (x1 ≤ x ∧ x < x2) ∧ (y1 ≤ y ∧ y < y2) ∧ ¬(x < 32 ∧ y < 16)) ↔ (32 < x2 ∨ 16 < y2) := by
  constructor
  · rintro ⟨x, y, hxs, hys, hout⟩
    omega
  · intro hb
    exact ⟨x2 - 1, y2 - 1, by omega, by omega, by omega⟩

/-- Settles O20: out of range it only raises RANGE, and otherwise it only fills cells. -/
theorem fillrectBeyondTheGridRaisesRange : Obligations.FillrectBeyondTheGridRaisesRange := by
  intro s x1 y1 x2 y2 k
  simp only [← rectOutOfRange_iff]
  refine ⟨fun hout => exec_fillrect_of_rectOutOfRange hout k s, fun hin => ?_, fun ⟨hx, hy⟩ => exists_outside_grid_iff hx hy⟩
  have hg : inGrid (.fillrect x1 y1 x2 y2 k) = true := by simpa [inGrid] using hin
  exact ⟨_, exec_fillrect_of_inGrid hg s, rfl, rfl, rfl, rfl⟩

/-- Every index of the grid is filled by CLEAR (40_framebuffer.md R122). -/
theorem mem_allCells_of_lt {a : Nat} (ha : a < Config.cells) : a ∈ allCells := by
  obtain ⟨x, y, rfl⟩ := exists_cellIndex ha
  exact cellIndex_mem_allCells x y

/-- A buffer in canonical form with every cell of the grid filled with 0 is the empty list. -/
theorem Memory.fill_allCells_zero {m : Memory} (hm : m.wf = true) : m.fill allCells 0 = [] := by
  refine Memory.ext_read (Memory.wf_fill hm 0 allCells_lt) Memory.wf_nil fun a => ?_
  rw [Memory.read_fill hm 0 a allCells_lt]
  split
  case isTrue => rfl
  case isFalse hmem =>
    have hbeyond : Config.cells ≤ a := not_lt.1 (mt mem_allCells_of_lt hmem)
    exact Memory.read_beyond hbeyond hm

/-- Settles O21: with all of the grid at 0 nothing is listed, and every cell reads as unlisted. -/
theorem clearZeroesEveryCell : Obligations.ClearZeroesEveryCell := by
  intro s hm
  have hclear : exec .clear s = .next { s with fb := [] } := by
    rw [exec_clear, State.fillCells, Memory.fill_allCells_zero hm]
  refine ⟨hclear, fun t ht x y => ?_⟩
  rw [hclear, Host.Outcome.next.injEq] at ht
  subst ht
  rfl

/-- Settles O22: the rectangle of the whole grid is not out of range and holds the cells that CLEAR fills. -/
theorem clearEqualsFillingTheGridWithZero : Obligations.ClearEqualsFillingTheGridWithZero := by
  refine ⟨fun s => ⟨_, exec_clear s, ?_⟩, by decide, rfl, by decide⟩
  exact exec_fillrect_of_inGrid (by decide) s

/-- Settles O23: the response is the cell zero-extended, and the buffer is the same for a second read. -/
theorem rdpixAnswersTheCell : Obligations.RdpixAnswersTheCell := by
  intro s x y
  refine ⟨_, exec_rdpix s x y, rfl, rfl, ?_, rfl⟩
  exact BitVec.toNat_setWidth_of_le (show 3 ≤ 32 by decide)

theorem responses_succ {s t : State} (h : step s = .next t) (n : Nat) :
    responses (n + 1) s = t.rsp.toList ++ responses n t := by
  rw [Nat.add_comm, responses_add, responses_one h, stateAfter_succ h, stateAfter]

section
variable {rest : List HostAction}

/-- The step that takes up a held RDPIX answers the cell and moves the host on. -/
theorem step_held_rdpix {s : State} {x : BitVec 5} {y : BitVec 4} (hm : s.mode = .idle)
    (hh : s.host = .hold (encode (.rdpix x y)) :: rest) :
    step s = .next { s with host := rest, writes := [], rsp := some (zext32 (s.cell x y)) } :=
  (step_held hm hh (decode_encode _)).trans (exec_rdpix _ x y)

/-- Held reads, run through their steps: they answer the pixels in their order, and leave the block as it was with empty write
list. -/
theorem reads_held (pixels : List (BitVec 5 × BitVec 4)) : ∀ s : State, s.mode = .idle →
    s.host = holdAll (pixels.map fun p => .rdpix p.1 p.2) ++ rest → pixels ≠ [] ∨ s.writes = [] →
    responses pixels.length s = pixels.map (fun p => zext32 (s.cell p.1 p.2)) ∧
    stateAfter pixels.length s = { s with host := rest, writes := [], rsp := (stateAfter pixels.length s).rsp } := by
  induction pixels with
  | nil =>
    intro s _ hh hw
    obtain rfl : s.host = rest := hh
    obtain hw : s.writes = [] := hw.resolve_left fun h => h rfl
    exact ⟨rfl, by rw [← hw]; rfl⟩
  | cons p pixels ih =>
    intro s hm hh _
    have hs := step_held_rdpix hm hh
    rw [List.length_cons, stateAfter_succ hs, responses_succ hs, List.map_cons]
    obtain ⟨hr, hend⟩ :=
      ih { s with host := _, writes := [], rsp := some (zext32 (s.cell p.1 p.2)) } hm rfl (.inr rfl)
    exact ⟨congrArg (_ :: ·) hr, hend⟩

end

/-- The pixel that command `n` of SNAPSHOT reads: column `n mod 32` of row `n div 32` (40_framebuffer.md R130). -/
def snapshotPixel (n : Nat) : BitVec 5 × BitVec 4 := (.ofNat 5 (n % 32), .ofNat 4 (n / 32))

theorem snapshotCommands_eq_reads :
    snapshotCommands = ((List.range 512).map snapshotPixel).map fun p => .rdpix p.1 p.2 := by
  rw [snapshotCommands_eq, List.map_map]
  rfl

theorem cellIndex_snapshotPixel {n : Nat} (hn : n < 512) :
    cellIndex (snapshotPixel n).1 (snapshotPixel n).2 = 16 * (n % 32) + n / 32 := by
  rw [cellIndex_eq, snapshotPixel, BitVec.toNat_ofNat, BitVec.toNat_ofNat]
  omega

/-- Settles O51: SNAPSHOT's commands are held reads of the pixels by their number. -/
theorem snapshotAnswersTheBufferInRowMajorOrder : Obligations.SnapshotAnswersTheBufferInRowMajorOrder := by
  intro s rest hm hh
  rw [snapshotCommands_eq_reads] at hh
  have hlen : ((List.range 512).map snapshotPixel).length = 512 := by rw [List.length_map, List.length_range]
  obtain ⟨hr, hend⟩ := reads_held ((List.range 512).map snapshotPixel) s hm hh
    (.inl (List.ne_nil_of_length_pos (by rw [hlen]; decide)))
  rw [hlen] at hr hend
  refine ⟨?_, hend⟩
  rw [hr, List.map_map]
  refine List.map_congr_left fun n hn => ?_
  rw [Function.comp_apply, State.cell, cellIndex_snapshotPixel (List.mem_range.1 hn)]

end Sys2Proof.Machine
end

section
/-! The codec of a block whose ROM holds its contents (41_color_codec.md R140, R143). -/

namespace Sys2Proof.Machine

/-- Settles O28: the ROM's entries are the bits of their codes, and the four tested codes are instances of that. -/
theorem codecGivesTheBitsOfTheCode : Obligations.CodecGivesTheBitsOfTheCode := by
  intro s hrom
  have hbits : ∀ k : Color, s.codec k = codecBits k := State.codec_of_rom hrom
  exact ⟨hbits, hbits 0, hbits 1, hbits 2, hbits 3⟩

end Sys2Proof.Machine
end

section
/-! A whole refresh as a run: its accepting step and then the iteration of micro-steps (42_scan_engine.md R150, R166). -/

namespace Sys2Proof.Machine

theorem refreshSteps_eq (dwell : Nat) : refreshSteps dwell = 8 * (133 + dwell) + 1 := Nat.add_comm _ _

/-- The scan lasts until the last micro-step of the refresh. -/
theorem scanIter_refresh_mode {s : State} {k : Nat} (hk : k < 8 * (133 + s.dwell.toNat)) :
    (State.scanIter k s.beginStep.startScan).mode = .scan := by
  obtain ⟨-, hscan⟩ := scanIter_refresh s.beginStep
  exact hscan k hk

section
variable {s : State} (ha : s.accepts = true) (hd : decode s.pins.cmdData = .ok .refresh) (hn : s.noReset = true)
include ha hd hn

/-- After the accepting step a refresh is the iteration of micro-steps, host apart, until the scan is over. -/
theorem stateAfter_refresh {n : Nat} (hle : n ≤ 8 * (133 + s.dwell.toNat)) :
    stateAfter (n + 1) s =
      { State.scanIter n s.beginStep.startScan with host := (stateAfter (n + 1) s).host } := by
  have hs := step_refresh ha hd
  obtain ⟨hrun, -⟩ :=
    run_eq_scan n _ (State.noReset_after hn hs) fun k hk => scanIter_refresh_mode (hk.trans_le hle)
  rw [stateAfter_succ hs]
  exact hrun

/-- What a refresh shows of its states, host apart: the accepting step's, and then the micro-steps'. -/
theorem runStates_refresh_map {α : Type} (f : State → α) (hf : ∀ t g, f { t with host := g } = f t) :
    (runStates (refreshSteps s.dwell.toNat) s).map f =
      f s.beginStep.startScan ::
        (State.scanStates (8 * (133 + s.dwell.toNat)) s.beginStep.startScan).map f := by
  have hs := step_refresh ha hd
  rw [refreshSteps_eq, runStates_succ hs, List.map_cons,
    runStates_map_scan (State.noReset_after hn hs) (fun k => scanIter_refresh_mode) f hf]

/-- A refresh ends in IDLE with the lines as row 7 leaves them (42_scan_engine.md R165, R176). -/
theorem stateAfter_refresh_end :
    stateAfter (refreshSteps s.dwell.toNat) s =
      { s with
        out := ({ s with row := 7 } : State).rowOut, writes := lastWrites s.dwell, rsp := none, mode := .idle,
        phase := .blankOn, row := 0, col := 0, wait := 0, host := (stateAfter (refreshSteps s.dwell.toNat) s).host } := by
  obtain ⟨hend, -⟩ := scanIter_refresh s.beginStep
  rw [refreshSteps_eq, stateAfter_refresh ha hd hn le_rfl]
  exact congrArg (fun t : State => { t with host := (stateAfter (8 * (133 + s.dwell.toNat) + 1) s).host }) hend

/-- The accepting step writes no line, and the eight rows write their row traces (42_scan_engine.md R168). -/
theorem writeTrace_refresh (hl : s.lut = codecRom) :
    writeTrace (refreshSteps s.dwell.toNat) s = refreshTrace s.fb s.dwell.toNat := by
  have hrows := scanStates_rows_writes 7 s.beginStep.startScan rfl rfl hl rfl
  have htrace := runStates_refresh_map ha hd hn (fun t => t.writes) fun _ _ => rfl
  rw [writeTrace, htrace, Nat.mul_comm]
  exact congrArg ([] :: ·) hrows

end

/-- Settles O44: the write lists of the rows, one row after the other. -/
theorem refreshWritesTheRefreshTrace : Obligations.RefreshWritesTheRefreshTrace :=
  fun _ hl ha hd hn => writeTrace_refresh ha hd hn hl

/-- Settles O45: the iteration stays in SCAN before its last micro-step, which ends in IDLE, and no micro-step changes the buffer or
DWELL. -/
theorem refreshTakesItsCountOfSteps : Obligations.RefreshTakesItsCountOfSteps := by
  intro s ha hd hn
  have hend := stateAfter_refresh_end ha hd hn
  refine ⟨fun n hpos hlt => ?_, by rw [hend]; rfl, fun n hle => ?_, by rw [hend]; exact ⟨rfl, rfl, rfl, rfl⟩⟩
  · obtain ⟨m, rfl⟩ := Nat.exists_eq_succ_of_ne_zero hpos.ne'
    have hm : m < 8 * (133 + s.dwell.toNat) := by rw [refreshSteps_eq] at hlt; omega
    rw [stateAfter_refresh ha hd hn hm.le]
    exact decide_eq_true (scanIter_refresh_mode hm)
  · cases n with
    | zero => exact ⟨rfl, rfl⟩
    | succ m =>
      obtain ⟨hfb, -, hdwell⟩ := scanIter_frame m s.beginStep.startScan
      rw [stateAfter_refresh ha hd hn (by rw [refreshSteps_eq] at hle; omega)]
      exact ⟨hfb, hdwell⟩

/-- Settles O46: row 7 leaves its address, CLK, LAT and OE low, and the colors of column 31. -/
theorem linesAfterARefresh : Obligations.LinesAfterARefresh := by
  intro s hinv ha hd hn
  have hcodec : ∀ k, s.codec k = codecBits k := State.codec_of_rom hinv.rom
  refine ⟨_, rfl, ?_⟩
  rw [stateAfter_refresh_end ha hd hn, ← hcodec, ← hcodec]
  refine ⟨?_, ?_, ?_, rfl, rfl, rfl, ⟨rfl, rfl, rfl⟩, rfl, rfl, rfl⟩ <;> simp [State.rowOut]

end Sys2Proof.Machine
end

section
/-! A refresh forgets what the lines held before it (42_scan_engine.md R175). -/

namespace Sys2Proof.Machine

/-- Buffers in canonical form that agree on every cell of the grid are equal. -/
theorem fb_eq_of_cell_eq {s s' : State} (hw : s.fb.wf = true) (hw' : s'.fb.wf = true)
    (h : ∀ x y, s.cell x y = s'.cell x y) : s.fb = s'.fb := by
  refine Memory.ext_read hw hw' fun a => ?_
  rcases Nat.lt_or_ge a Config.cells with hlt | hge
  · obtain ⟨x, y, rfl⟩ := exists_cellIndex hlt
    exact h x y
  · rw [Memory.read_beyond hge hw, Memory.read_beyond hge hw']

theorem scanStates_host (n : Nat) : ∀ (s : State) (g : List HostAction),
    State.scanStates n { s with host := g } = (State.scanStates n s).map fun t => { t with host := g } := by
  induction n with
  | zero => exact fun _ _ => rfl
  | succ n ih =>
    intro s g
    rw [State.scanStates, State.scanNext_host, ih]
    rfl

/-- The micro-steps up to a row's first COL_LO drive every line but CLK and LAT. -/
theorem scanIter_firstColLo {s : State} (hp : s.phase = .blankOn) :
    State.scanIter 4 s =
      let lo := s.codec (s.cell 0 (lowerRow s.row))
      { s with
        out := { s.columnOut 0 with
          clk := s.out.clk, oe := true, a := s.row.getLsbD 0, b := s.row.getLsbD 1, c := s.row.getLsbD 2 },
        writes := [(.rLo, lo.r), (.gLo, lo.g), (.bLo, lo.b)], rsp := none, col := 0, phase := .clkHi } := by
  obtain ⟨fb, lut, dwell, mode, cause, phase, row, col, wait, out, host, writes, rsp⟩ := s
  subst hp
  rfl

/-- In two IDLE states of the invariant the refresh of the same buffer with the same DWELL stands at the same point, host apart, after
row 0's first COL_LO: CLK and LAT, the two lines not driven so far, are low in both. -/
theorem scanIter_firstColLo_eq {s s' : State} (h : Inv s) (h' : Inv s') (hm : s.mode = .idle) (hm' : s'.mode = .idle)
    (hfb : s.fb = s'.fb) (hdwell : s.dwell = s'.dwell) :
    State.scanIter 4 s.startScan = { State.scanIter 4 s'.startScan with host := s.host } := by
  obtain ⟨-, hl, hfault, -, -, hclk, hlat, -⟩ := (inv_iff_of_not_scan (by simp [hm])).1 h
  obtain ⟨-, hl', hfault', -, -, hclk', hlat', -⟩ := (inv_iff_of_not_scan (by simp [hm'])).1 h'
  have hcause : s.cause = s'.cause := by
    have h0 : s.cause = 0 := by simpa [hm] using hfault
    have h0' : s'.cause = 0 := by simpa [hm'] using hfault'
    rw [h0, h0']
  have hl : s.lut = s'.lut := hl.trans hl'.symm
  have hclk : s.out.clk = s'.out.clk := hclk.trans hclk'.symm
  have hlat : s.out.lat = s'.out.lat := hlat.trans hlat'.symm
  rw [scanIter_firstColLo rfl, scanIter_firstColLo rfl]
  simp only [State.columnOut, State.startScan, State.codec, State.cell, hfb, hl, hdwell, hcause, hclk, hlat]

/-- The pin vectors from refresh step 4 on, which is row 0's first COL_LO. -/
theorem pinTrace_refresh_drop {s : State} (ha : s.accepts = true) (hd : decode s.pins.cmdData = .ok .refresh)
    (hn : s.noReset = true) :
    (pinTrace (refreshSteps s.dwell.toNat) s).drop 4 =
      (State.scanIter 4 s.beginStep.startScan ::
        State.scanStates (1060 + 8 * s.dwell.toNat) (State.scanIter 4 s.beginStep.startScan)).map
          fun t => t.out.pinVector := by
  rw [pinTrace, runStates_refresh_map ha hd hn (fun t => t.out.pinVector) fun _ _ => rfl,
    show 8 * (133 + s.dwell.toNat) = 3 + (1060 + 8 * s.dwell.toNat + 1) by omega, State.scanStates_add,
    List.drop_succ_cons, List.map_append, List.drop_left' (by rw [List.length_map, scanStates_length])]
  rfl

/-- Settles O47: both traces are the function of the buffer and DWELL, and after the first COL_LO the two scans are the same. -/
theorem refreshCarriesNothingOver : Obligations.RefreshCarriesNothingOver := by
  intro s s' h h' hcells hdwell ha hd hn ha' hd' hn'
  have hfb := fb_eq_of_cell_eq h.memory h'.memory hcells
  obtain ⟨hm, -⟩ := State.accepts_iff.1 ha
  obtain ⟨hm', -⟩ := State.accepts_iff.1 ha'
  constructor
  · rw [writeTrace_refresh ha hd hn h.rom, hdwell, writeTrace_refresh ha' hd' hn' h'.rom, hfb]
  · rw [pinTrace_refresh_drop ha hd hn, hdwell, pinTrace_refresh_drop ha' hd' hn',
      scanIter_firstColLo_eq (inv_beginStep h) (inv_beginStep h') hm hm' hfb hdwell, scanStates_host, List.map_cons,
      List.map_cons, List.map_map]
    rfl

end Sys2Proof.Machine
end

section
/-! The lines that a refresh writes, counted (42_scan_engine.md R167). -/

namespace Sys2Proof.Machine

/-- The lines written in one column, in order. -/
def columnLines : List Line := [.rUp, .gUp, .bUp, .rLo, .gLo, .bLo, .clk, .clk]

/-- The lines written in one scan row, in order. -/
def rowLines : List Line :=
  [Line.oe, Line.a, Line.b, Line.c] ++ (List.replicate Config.cols columnLines).flatten ++ [Line.lat, Line.lat, Line.oe]

/-- Traces that each write the same lines write them over and over. -/
theorem flatMap_range_lines {f : Nat → List WriteList} {ls : List Line} (h : ∀ i, (f i).flatten.map Prod.fst = ls)
    (n : Nat) :
    ((List.range n).flatMap f).flatten.map Prod.fst = (List.replicate n ls).flatten := by
  induction n with
  | zero => rfl
  | succ n ih => simp [List.range_succ, List.replicate_succ', ih, h]

/-- Every row writes the same lines, whatever the buffer and the dwell: a dwell unit writes none. -/
theorem rowTrace_lines (fb : Memory) (dwell r : Nat) : (rowTrace fb dwell r).flatten.map Prod.fst = rowLines := by
  have hcols := flatMap_range_lines (f := columnTrace fb r) (ls := columnLines) (fun _ => rfl) Config.cols
  simp only [rowTrace, List.flatten_append, List.map_append, hcols, List.flatten_replicate_nil,
    List.append_nil]
  rfl

theorem refreshTrace_lines (fb : Memory) (dwell : Nat) :
    (refreshTrace fb dwell).flatten.map Prod.fst = (List.replicate Config.half rowLines).flatten := by
  have hrows := flatMap_range_lines (rowTrace_lines fb dwell) Config.half
  rw [refreshTrace, List.flatten_append, List.map_append, hrows, List.flatten_singleton, List.map_nil, List.nil_append]

/-- How often a refresh writes a line: 8 rows, each with 32 columns. -/
theorem count_refreshLines (l : Line) :
    (List.replicate Config.half rowLines).flatten.count l =
      Config.half * ([Line.oe, .a, .b, .c].count l + Config.cols * columnLines.count l + [Line.lat, .lat, .oe].count l) := by
  simp only [rowLines, List.count_flatten, List.map_replicate, List.sum_replicate, List.count_append, smul_eq_mul]

theorem length_refreshLines :
    (List.replicate Config.half rowLines).flatten.length = Config.half * (4 + Config.cols * columnLines.length + 3) := by
  simp only [rowLines, List.length_flatten, List.map_replicate, List.sum_replicate, List.length_append, smul_eq_mul,
    List.length_cons, List.length_nil]

/-- Settles O48: the lines of one row, counted eight times. -/
theorem refreshWriteCounts : Obligations.RefreshWriteCounts := by
  intro s hl ha hd hn
  refine ⟨_, rfl, ?_⟩
  rw [writeTrace_refresh ha hd hn hl, refreshTrace_lines]
  simp only [count_refreshLines, length_refreshLines]
  decide

end Sys2Proof.Machine
end

section
/-! The informative panel through a whole refresh (42_scan_engine.md R158, R178). -/

namespace Sys2Proof.Machine

/-- The driver of each of the 16 rows after a refresh that began with CLK and LAT low. -/
theorem observe_refresh (e : ShiftEdge) (p : Panel) {s : State} (ha : s.accepts = true)
    (hd : decode s.pins.cmdData = .ok .refresh) (hn : s.noReset = true) (hclk : s.out.clk = false)
    (hlat : s.out.lat = false) (y : BitVec 4) :
    (Panel.observeAll e p s.out ((runStates (refreshSteps s.dwell.toNat) s).map fun t => t.out)).drivers[y.toNat]? =
      some (s.rowColors y.toNat 0 32) := by
  have hfirst : Panel.observeAll e p s.out [s.out] = p :=
    observeAll_quiet e [s.out] p s.out hclk hlat (by simp [hclk, hlat])
  obtain ⟨q, hq, hrows⟩ := observe_rows e 7 p s.beginStep.startScan rfl rfl hclk hlat rfl
  have hrun : Panel.observeAll e p s.out ((runStates (refreshSteps s.dwell.toNat) s).map fun t => t.out) = q := by
    rw [runStates_refresh_map ha hd hn (fun t => t.out) fun _ _ => rfl, ← List.singleton_append, observeAll_append]
    change Panel.observeAll e (Panel.observeAll e p s.out [s.out]) s.out _ = q
    rw [hfirst, ← hq, Nat.mul_comm]
    rfl
  rw [hrun]
  have hy := y.isLt
  rcases Nat.lt_or_ge y.toNat 8 with hlt | hge
  · obtain ⟨-, hshown⟩ := hrows y.toNat hlt
    obtain ⟨hup, -⟩ := hshown (Nat.zero_le _)
    exact hup
  · obtain ⟨r, hr⟩ := Nat.exists_eq_add_of_le' hge
    obtain ⟨-, hshown⟩ := hrows r (by omega)
    obtain ⟨-, hlo⟩ := hshown (Nat.zero_le _)
    rw [hr]
    exact hlo

/-- The colors of a row are those of its cells, the last column first. -/
theorem State.rowColors_getElem? (s : State) (x : BitVec 5) (y : BitVec 4) :
    (s.rowColors y.toNat 0 32)[31 - x.toNat]? = some (s.codec (s.cell x y)) := by
  have hx := x.isLt
  rw [State.rowColors, List.getElem?_map, List.getElem?_reverse (by rw [List.length_range']; omega), List.length_range',
    List.getElem?_range' (by omega), Option.map_some, State.cell, cellIndex_gridIndex,
    show 0 + 1 * (32 - 1 - (31 - x.toNat)) = x.toNat by omega]

theorem lastColumn_sub_toNat : ∀ x : BitVec 5, (31 - x).toNat = 31 - x.toNat := by decide

/-- Settles O50: the driver of each row holds the row's colors, the last column first, and each column order reads them back. -/
theorem panelHoldsTheBufferAfterARefresh : Obligations.PanelHoldsTheBufferAfterARefresh := by
  intro s e p h ha hd hn
  obtain ⟨hm, -⟩ := State.accepts_iff.1 ha
  obtain ⟨-, hl, -, -, -, hclk, hlat, -⟩ := (inv_iff_of_not_scan (by simp [hm])).1 h
  refine ⟨_, rfl, fun x y => ?_⟩
  obtain ⟨_, hdriver⟩ := Vector.getElem?_eq_some_iff.1 (observe_refresh e p ha hd hn hclk hlat y)
  rw [← State.codec_of_rom hl, ← s.rowColors_getElem? x y, ← hdriver]
  refine ⟨rfl, ?_⟩
  rw [Panel.pixel, lastColumn_sub_toNat]

end Sys2Proof.Machine
end

section
/-! The micro-steps one by one (42_scan_engine.md R154 to R165): REFRESH and the next state of each phase. -/

namespace Sys2Proof.Machine

theorem exec_refresh (s : State) : exec .refresh s = .next s.startScan := rfl

/-- Settles O25: the accepting step sets the sequencer and the mode, and the status outputs are those of SCAN. -/
theorem refreshStartsTheScan : Obligations.RefreshStartsTheScan := by
  intro s
  refine ⟨exec_refresh s, fun t ht => ?_⟩
  rw [exec_refresh, Host.Outcome.next.injEq] at ht
  subst ht
  exact ⟨rfl, rfl⟩

/-- The upper pixel of a column by its linear index (42_scan_engine.md R156). -/
theorem State.cell_upperRow (s : State) (c : BitVec 5) (r : BitVec 3) :
    s.cell c (upperRow r) = s.fb.read (16 * c.toNat + r.toNat) := by
  rw [State.cell, cellIndex_eq, upperRow_toNat]

/-- The lower pixel of a column by its linear index (42_scan_engine.md R157). -/
theorem State.cell_lowerRow (s : State) (c : BitVec 5) (r : BitVec 3) :
    s.cell c (lowerRow r) = s.fb.read (16 * c.toNat + (r.toNat + 8)) := by
  rw [State.cell, cellIndex_eq, lowerRow_toNat]

/-- The three address levels weigh up to the row (42_scan_engine.md R169). -/
theorem row_of_address_bits : ∀ r : BitVec 3,
    (r.getLsbD 0).toNat + 2 * (r.getLsbD 1).toNat + 4 * (r.getLsbD 2).toNat = r.toNat := by decide

/-- Three line writes in one step (42_scan_engine.md R155 to R157). -/
theorem State.emit_three (s : State) (l l' l'' : Line) (v v' v'' : Bool) :
    ((s.emit l v).emit l' v').emit l'' v'' =
      { s with
        out := ((s.out.set l v).set l' v').set l'' v'', writes := s.writes ++ [(l, v), (l', v'), (l'', v'')] } := by
  simp [State.emit]

/-- A scan step without reset, by what its micro-step leaves. -/
theorem step_micro {s t : State} (hm : s.mode = .scan) (hr : s.pins.rst = false) (h : microStep s.beginStep = t) :
    step s = .next t :=
  (step_scan hm hr).trans (congrArg _ h)

/-- Settles O36: BLANK_ON's one write. -/
theorem blankOnDrivesOe : Obligations.BlankOnDrivesOe :=
  fun _ hm hp hr => ⟨_, step_micro hm hr (microStep_blankOn hp)⟩

/-- Settles O37: SET_ADDR's three writes in one step, and the weights of the row's bits. -/
theorem setAddrDrivesTheScanRow : Obligations.SetAddrDrivesTheScanRow := by
  intro s hm hp hr
  refine ⟨_, s.hostAfter, ?_, rfl, row_of_address_bits s.row⟩
  rw [step_micro hm hr (microStep_setAddr hp), microSetAddr, State.emit_three]
  rfl

/-- Settles O38: the upper pixel's code through the ROM. -/
theorem colUpDrivesTheUpperPixel : Obligations.ColUpDrivesTheUpperPixel := by
  rintro s k hl hm hp hr rfl
  refine ⟨s.hostAfter, ?_⟩
  rw [← State.cell_upperRow, step_micro hm hr (microStep_colUp hp), microColUp, State.codec_of_rom (s := s.beginStep) hl,
    State.emit_three]
  rfl

/-- Settles O39: the lower pixel's code through the ROM. -/
theorem colLoDrivesTheLowerPixel : Obligations.ColLoDrivesTheLowerPixel := by
  rintro s k hl hm hp hr rfl
  refine ⟨s.hostAfter, ?_⟩
  rw [← State.cell_lowerRow, step_micro hm hr (microStep_colLo hp), microColLo, State.codec_of_rom (s := s.beginStep) hl,
    State.emit_three]
  rfl

/-- Settles O40: CLK_LO's two ways on, and the column counter does not wrap where it is stepped. -/
theorem clockPulseAdvancesTheColumn : Obligations.ClockPulseAdvancesTheColumn := by
  intro s hm hr
  refine ⟨fun hp => ⟨_, step_micro hm hr (microStep_clkHi hp)⟩, fun hp hc => ⟨s.hostAfter, ?_⟩,
    fun hp hc => ⟨s.col + 1, s.hostAfter, column_succ s.col hc, ?_⟩⟩
  · rw [step_micro hm hr (microStep_clkLo hp), microClkLo, if_pos (by exact hc)]
    rfl
  · rw [step_micro hm hr (microStep_clkLo hp), microClkLo, if_neg (by exact hc)]
    rfl

/-- Settles O41: the one write of each of LAT_HI and LAT_LO. -/
theorem latchPulseIsHighThenLow : Obligations.LatchPulseIsHighThenLow :=
  fun _ hm hr => ⟨fun hp => ⟨_, step_micro hm hr (microStep_latHi hp)⟩, fun hp => ⟨_, step_micro hm hr (microStep_latLo hp)⟩⟩

/-- Settles O42: BLANK_OFF starts the dwell, or without dwell ends the row, which is the last or is followed by the next. -/
theorem blankOffLightsTheRow : Obligations.BlankOffLightsTheRow := by
  intro s hm hp hr
  have hstep := step_micro hm hr (microStep_blankOff hp)
  refine ⟨fun hd => ⟨s.hostAfter, ?_⟩, fun hd h7 => ⟨s.hostAfter, ?_⟩,
    fun hd h7 => ⟨s.row + 1, s.hostAfter, row_succ s.row h7, ?_⟩⟩
  · rw [hstep, microBlankOff, if_neg (by exact hd)]
    rfl
  · rw [hstep, microBlankOff, if_pos (by exact hd), State.endOfRow_last (by exact h7)]
    rfl
  · rw [hstep, microBlankOff, if_pos (by exact hd), State.endOfRow_next (by exact h7)]
    rfl

/-- The last unit of a row leaves no dwell to spend. -/
theorem microRowHold_last {s : State} (hw : s.wait = 1) : microRowHold s = ({ s with wait := 0 } : State).endOfRow := by
  rw [microRowHold, hw]
  rfl

/-- Settles O43: a dwell unit that is not the last only counts, and the last one ends the row. -/
theorem rowHoldCountsDown : Obligations.RowHoldCountsDown := by
  intro s h hm hp hr
  obtain ⟨h0, -⟩ := h.waitInHold hm hp
  have hstep := step_micro hm hr (microStep_rowHold hp)
  refine ⟨fun h1 => ⟨s.wait - 1, s.hostAfter, ?_, ?_⟩, fun h1 h7 => ⟨s.hostAfter, ?_⟩,
    fun h1 h7 => ⟨s.row + 1, s.hostAfter, row_succ s.row h7, ?_⟩⟩
  · bv_omega
  · have hne : s.wait - 1 ≠ 0 := fun hz => h1 (sub_eq_zero.1 hz)
    rw [hstep, microRowHold]
    exact congrArg _ (if_neg hne)
  · rw [hstep, microRowHold_last (s := s.beginStep) h1, State.endOfRow_last (by exact h7)]
    rfl
  · rw [hstep, microRowHold_last (s := s.beginStep) h1, State.endOfRow_next (by exact h7)]
    rfl

end Sys2Proof.Machine
end

section
/-! When the lines change (42_scan_engine.md R153, R174): address, data, CLK and LAT only under OE, CLK and LAT only on stable data. -/

namespace Sys2Proof.Machine

/-- A micro-step changes a line other than OE only in the phases in which the panel is blanked, and then it leaves OE alone. -/
theorem microStep_changes_blanked {s : State} {l : Line} (hl : l ≠ .oe)
    (h : (microStep s).out.level l ≠ s.out.level l) : s.phase.blanked = true ∧ (microStep s).out.oe = s.out.oe := by
  cases hp : s.phase with
  | blankOn => simp [microStep_blankOn hp, microBlankOn, Lines.level_set, hl] at h
  | setAddr => simp [microStep_setAddr hp, microSetAddr, Lines.set]
  | colUp => simp [microStep_colUp hp, microColUp, Lines.set]
  | colLo => simp [microStep_colLo hp, microColLo, Lines.set]
  | clkHi => simp [microStep_clkHi hp, microClkHi, Lines.set]
  | clkLo => rw [microStep_clkLo hp, microClkLo]; split <;> simp [Lines.set]
  | latHi => simp [microStep_latHi hp, microLatHi, Lines.set]
  | latLo => simp [microStep_latLo hp, microLatLo, Lines.set]
  | blankOff => rw [microStep_blankOff hp, microBlankOff] at h; split at h <;> simp [Lines.level_set, hl] at h
  | rowHold => rw [microStep_rowHold hp, microRowHold] at h; dsimp only at h; split at h <;> simp at h

/-- Settles O34: outside SCAN a step writes no line but OE, and in SCAN the invariant has OE = 1 in the phases that change one. -/
theorem linesChangeOnlyWhileBlanked : Obligations.LinesChangeOnlyWhileBlanked := by
  intro s t l h hr ht hl hne
  rcases step_lines hr ht with ⟨-, ho⟩ | ⟨-, -, hw, ho⟩ | ⟨hm, -, -⟩
  · exact absurd (by rw [ho]) hne
  · exact absurd (by rw [ho, hw, Lines.drive_cons, Lines.drive_nil, Lines.level_set, if_neg hl]) hne
  · rw [step_scan hm hr, Host.Outcome.next.injEq] at ht
    subst ht
    obtain ⟨hb, hoe⟩ := microStep_changes_blanked (s := s.beginStep) hl hne
    have hblank : s.out.oe = true := h.blanked hm hb
    exact ⟨hblank, hoe.trans hblank⟩

/-- Only a micro-step leads into the middle of a scan row. -/
theorem step_into_scan {s t : State} (hr : s.pins.rst = false) (ht : step s = .next t) (hm : t.mode = .scan)
    (hp : t.phase ≠ .blankOn) : s.mode = .scan ∧ t = microStep s.beginStep := by
  rcases step_cases ht with ⟨hr', -⟩ | ⟨-, hidle, -, i, -, he⟩ | ⟨-, -, -, e, -, rfl⟩ | ⟨-, hidle, -, rfl⟩ |
    ⟨-, hscan, rfl⟩ | ⟨-, hfault, rfl⟩
  · simp [hr] at hr'
  · obtain rfl := (exec_mode_scan_iff (s := s.beginStep) hidle he).1 hm
    rw [exec_refresh, Host.Outcome.next.injEq] at he
    subst he
    exact absurd rfl hp
  · simp at hm
  · simp [hidle] at hm
  · exact ⟨hscan, rfl⟩
  · simp [hfault] at hm

/-- CLK_HI alone leads to CLK_LO, and LAT_HI alone to LAT_LO (42_scan_engine.md R152). -/
theorem microStep_phase_pulse (s : State) :
    ((microStep s).phase = .clkLo → s.phase = .clkHi) ∧ ((microStep s).phase = .latLo → s.phase = .latHi) := by
  cases hp : s.phase with
  | blankOn => simp [microStep_blankOn hp, microBlankOn]
  | setAddr => simp [microStep_setAddr hp, microSetAddr]
  | colUp => simp [microStep_colUp hp, microColUp]
  | colLo => simp [microStep_colLo hp, microColLo]
  | clkHi => simp [microStep_clkHi hp, microClkHi]
  | clkLo => rw [microStep_clkLo hp, microClkLo]; split <;> simp
  | latHi => simp [microStep_latHi hp, microLatHi]
  | latLo => simp [microStep_latLo hp, microLatLo]
  | blankOff => rw [microStep_blankOff hp, microBlankOff]; split <;> simp
  | rowHold => rw [microStep_rowHold hp, microRowHold]; dsimp only; split <;> simp [hp]

/-- Settles O35: by the invariant after the step CLK is high only after CLK_HI and LAT only after LAT_HI, and by the invariant before
it the lines of the pixels and the address are then as they should be. -/
theorem clockAndLatchRiseOnStableData : Obligations.ClockAndLatchRiseOnStableData := by
  intro s t h hr ht
  have h' := everyStepKeepsTheInvariant s t h ht
  refine ⟨fun hclk => ?_, fun hlat => ?_⟩
  · obtain ⟨hm', hp'⟩ := h'.clock.1 hclk
    obtain ⟨hm, rfl⟩ := step_into_scan hr ht hm' (by simp [hp'])
    obtain ⟨hpulse, -⟩ := microStep_phase_pulse s.beginStep
    have hp : s.phase = .clkHi := hpulse hp'
    rw [← s.cell_upperRow, ← s.cell_lowerRow, microStep_clkHi (s := s.beginStep) hp]
    exact ⟨hm, rfl, h.upper hm (by simp [hp]), h.lower hm (by simp [hp])⟩
  · obtain ⟨hm', hp'⟩ := h'.latch.1 hlat
    obtain ⟨hm, rfl⟩ := step_into_scan hr ht hm' (by simp [hp'])
    obtain ⟨-, hpulse⟩ := microStep_phase_pulse s.beginStep
    have hp : s.phase = .latHi := hpulse hp'
    rw [microStep_latHi (s := s.beginStep) hp]
    exact ⟨hm, h.columnDone hm (by simp [hp]), rfl, h.address hm (by simp [hp])⟩

end Sys2Proof.Machine
end

section
/-! The configuration commands WRDWELL and RDDWELL (43_config.md R190, R193). -/

namespace Sys2Proof.Machine

/-- Settles O24: WRDWELL's next state is the write of DWELL, and RDDWELL's is the response of DWELL zero-extended. -/
theorem dwellIsWrittenAndAnswered : Obligations.DwellIsWrittenAndAnswered := by
  intro s n
  have hzext : (zext32 s.dwell).toNat = s.dwell.toNat := BitVec.toNat_setWidth_of_le (by decide)
  exact ⟨exec_wrdwell s n, _, exec_rddwell s, rfl, rfl, hzext⟩

end Sys2Proof.Machine
end

section
/-! The faults (60_exceptions.md R203 to R209): what raises ILLEGAL and RANGE, that FAULT changes nothing and only reset leaves it, and
a program that runs into a FILLRECT out of range. -/

namespace Sys2Proof.Machine

/-- The step that accepts a word of no command raises ILLEGAL (60_exceptions.md R205). -/
theorem step_illegal {s : State} {e : Illegal} (ha : s.accepts = true) (hd : decode s.pins.cmdData = .error e) :
    step s = .next (s.beginStep.raiseFault .illegal) := by
  obtain ⟨hm, hr, hv⟩ := State.accepts_iff.1 ha
  simp [step, cycle, idleStep, acceptWord, hm, hr, hv, hd]

/-- Only a FILLRECT can be out of range, and then it raises RANGE (40_framebuffer.md R117). -/
theorem exec_of_not_inGrid {i : Instr} (hi : inGrid i = false) (s : State) : exec i s = .next (s.raiseFault .range) := by
  cases i with
  | fillrect x1 y1 x2 y2 k => exact exec_fillrect_of_rectOutOfRange (by simpa [inGrid] using hi) k s
  | _ => cases hi

/-- In FAULT the words held at the port stay there for any number of steps, and only the output ports may change
(60_exceptions.md R208). -/
theorem stateAfter_fault_holdAll {rest : List Instr} (n : Nat) : ∀ s : State, s.mode = .fault → s.host = holdAll rest →
    ∃ ws r, stateAfter n s = { s with writes := ws, rsp := r } := by
  induction n with
  | zero => exact fun s _ _ => ⟨s.writes, s.rsp, rfl⟩
  | succ n ih =>
    intro s hm hh
    have hkeep : s.hostAfter = s.host := (hostAfter_holdAll (by simp [hm]) hh).trans hh.symm
    have hs : step s = .next { s with writes := [], rsp := none } := by
      rw [step_fault hm (State.noReset_pins (noReset_holdAll hh)), State.beginStep, hkeep]
    rw [stateAfter_succ hs]
    exact ih _ hm hh

/-- A held command out of range, and any number of steps after it: the block rests in FAULT with the cause RANGE, the panel is blanked
and the commands behind it stay at the port (60_exceptions.md R204, R208). -/
theorem range_held {s : State} {i : Instr} {rest : List Instr} (hm : s.mode = .idle) (hh : s.host = holdAll (i :: rest))
    (hi : inGrid i = false) (n : Nat) :
    ∃ ws r, stateAfter (n + 1) s =
      { s with mode := .fault, cause := 2, out := s.out.set .oe true, host := holdAll rest, writes := ws, rsp := r } := by
  rw [stateAfter_succ ((step_held hm hh (decode_encode i)).trans (exec_of_not_inGrid hi _))]
  exact stateAfter_fault_holdAll n _ rfl rfl

/-- Settles O53: the program in front of the command meets its reference, the command's own step only raises RANGE, and FAULT then
keeps all of it. -/
theorem faultsArePreciseInAProgram : Obligations.FaultsArePreciseInAProgram := by
  rintro cs rest i s t n hcs hi rfl rfl
  obtain ⟨⟨hm, -, hc, hd⟩, hh, -⟩ :=
    program_meets_reference (rest := i :: rest) cs hcs _ [] (meetsReference_reset (holdAll (cs ++ i :: rest))) rfl
  rw [List.append_nil] at hc hd
  obtain ⟨ws, r, hrest⟩ := range_held hm hh hi n
  rw [Nat.add_assoc, stateAfter_add, Nat.add_comm 1 n, hrest]
  exact ⟨rfl, rfl, rfl, rfl, hc, hd⟩

/-- Settles O15: the step begins and raises ILLEGAL, whose code is 1. -/
theorem illegalWordFaults : Obligations.IllegalWordFaults :=
  fun s _ ha hd => ⟨s.hostAfter, step_illegal ha hd⟩

/-- Settles O16: the step only begins; the invariant gives the cause and the blanked panel, and a held word waits for a block that is
not ready. -/
theorem faultModeDoesNothing : Obligations.FaultModeDoesNothing := by
  intro s hinv hm hr
  have hidle : s.mode ≠ .idle := by simp [hm]
  have hs := step_fault hm hr
  refine ⟨_, hs, rfl, by simp [State.cmdReady, hm], by simp [State.busy, hm], by simp [State.faultOut, hm], rfl,
    hinv.causeOfFault.2 hm, rfl, hinv.faultBlanked hm, fun w hw => ?_⟩
  obtain ⟨rest, hrest⟩ := List.head?_eq_some_iff.1 hw
  exact (heldWordStaysUntilAccepted s _ w rest hrest hs).2.2 hidle

/-- Settles O17: a reset step ends in IDLE, and any other step from FAULT keeps the mode. -/
theorem onlyResetLeavesFault : Obligations.OnlyResetLeavesFault := by
  intro s t hm ht
  cases hr : s.pins.rst with
  | true =>
    obtain rfl : s.beginStep.resetBlock = t := by simpa [step_reset hr] using ht
    simp
  | false =>
    obtain rfl : s.beginStep = t := by simpa [step_fault hm hr] using ht
    simp [hm]

end Sys2Proof.Machine
end

section
/-! Reset (70_reset_and_hazards.md R230): the values a reset step sets, and the invariant right after it. -/

namespace Sys2Proof.Machine

/-- Right after reset the panel is blanked and every other line is low (70_reset_and_hazards.md R230). -/
theorem Lines.pinVector_reset : Lines.reset.pinVector = 0x100 := by decide

/-- Settles O6: the step begins and resets the block, and a reset block holds the reset values. -/
theorem resetStepSetsTheResetValues : Obligations.ResetStepSetsTheResetValues := by
  intro s hr
  refine ⟨_, step_reset hr, fun _ _ => rfl, Memory.wf_nil, ?_⟩
  simp [Config.dwellReset, Lines.pinVector_reset]

/-- Settles O7: the state right after reset is a reset block, and a reset step leaves the ROM alone. -/
theorem invariantHoldsAfterReset : Obligations.InvariantHoldsAfterReset := by
  refine ⟨inv_resetBlock (s := State.reset) rfl, fun s t hl hr ht => ?_⟩
  obtain rfl : s.beginStep.resetBlock = t := by simpa [step_reset hr] using ht
  exact inv_resetBlock hl

end Sys2Proof.Machine
end

section
/-! How long a refresh lights each of its scan rows (42_scan_engine.md R166, 70_reset_and_hazards.md R248). -/

namespace Sys2Proof.Machine

/-- A host that asserts no reset asserts none later. -/
theorem State.noReset_stateAfter (n : Nat) : ∀ s : State, s.noReset = true → (stateAfter n s).noReset = true := by
  induction n with
  | zero => exact fun _ hn => hn
  | succ n ih =>
    intro s hn
    obtain ⟨t, ht⟩ := step_total s
    rw [stateAfter_succ ht]
    exact ih t (State.noReset_after hn ht)

/-- Of the micro-steps of one row, the first 132 leave the panel blanked and the last `1 + DWELL` lit. -/
theorem countP_lit_scanStates_row {s : State} (hp : s.phase = .blankOn) :
    (State.scanStates (133 + s.dwell.toNat) s).countP (fun t => !t.out.oe) = s.dwell.toNat + 1 := by
  obtain ⟨hblanked, hlit⟩ := scanStates_row_oe hp
  have hnone : (State.scanStates 132 s).countP (fun t => !t.out.oe) = 0 :=
    List.countP_eq_zero.2 fun t ht => by simp [hblanked t.out (List.mem_map_of_mem ht)]
  have hall : (State.scanStates (1 + s.dwell.toNat) (State.scanIter 132 s)).countP (fun t => !t.out.oe) =
      (State.scanStates (1 + s.dwell.toNat) (State.scanIter 132 s)).length :=
    List.countP_eq_length.2 fun t ht => by simp [hlit t.out (List.mem_map_of_mem ht)]
  rw [show 133 + s.dwell.toNat = 132 + (1 + s.dwell.toNat) by omega, State.scanStates_add, List.countP_append, hnone, hall,
    scanStates_length]
  omega

/-- While the scan lasts, a run without reset is lit as often as the iteration of micro-steps. -/
theorem litSteps_scan {n : Nat} {s : State} (hn : s.noReset = true) (h : ∀ k, k < n → (State.scanIter k s).mode = .scan) :
    litSteps n s = (State.scanStates n s).countP fun t => !t.out.oe := by
  have hmap := runStates_map_scan hn h (fun t => !t.out.oe) fun _ _ => rfl
  simpa [litSteps, List.countP_map, Function.comp_def] using congrArg (List.countP id) hmap

/-- A row that begins at BLANK_ON is lit after `DWELL + 1` of its steps. -/
theorem litSteps_row {s : State} (hn : s.noReset = true) (hm : s.mode = .scan) (hp : s.phase = .blankOn) :
    litSteps (133 + s.dwell.toNat) s = s.dwell.toNat + 1 := by
  have hlast : (State.scanIter (132 + s.dwell.toNat) s).mode = .scan := (scanIter_row_mode hp).trans hm
  rw [litSteps_scan hn fun k hk => scanIter_scan_of_le (by omega) hlast, countP_lit_scanStates_row hp]

/-- Where a refresh stands when its row `r` begins: at the row's BLANK_ON, with DWELL as it was. -/
theorem refresh_row_begins {s : State} {r : Nat} (ha : s.accepts = true) (hd : decode s.pins.cmdData = .ok .refresh)
    (hn : s.noReset = true) (hr : r < 8) {t : State} (ht : stateAfter (1 + r * (133 + s.dwell.toNat)) s = t) :
    t.mode = .scan ∧ t.phase = .blankOn ∧ t.row = BitVec.ofNat 3 r ∧ t.dwell = s.dwell := by
  obtain ⟨_, _, _, _, hrow⟩ := scanIter_rows_before r s.beginStep hr
  have hrun := stateAfter_refresh ha hd hn (Nat.mul_le_mul_right (133 + s.dwell.toNat) hr.le)
  rw [State.beginStep_dwell] at hrow
  rw [hrow, Nat.add_comm, ht] at hrun
  rw [hrun]
  exact ⟨rfl, rfl, rfl, rfl⟩

/-- Settles O49: row `r` begins at BLANK_ON of a scan that no reset ends, so its steps are those of a row. -/
theorem refreshLightsEachRowForDwellPlusOne : Obligations.RefreshLightsEachRowForDwellPlusOne := by
  intro s r ha hd hn hr
  have hn' := State.noReset_stateAfter (1 + r * (133 + s.dwell.toNat)) s hn
  obtain ⟨hm, hp, hrow, hdwell⟩ := refresh_row_begins ha hd hn hr rfl
  constructor
  · rw [hrow, BitVec.toNat_ofNat, Nat.mod_eq_of_lt hr]
  · have hlit := litSteps_row hn' hm hp
    rwa [hdwell] at hlit

end Sys2Proof.Machine
end
